-- ==== Sys2Proof/Word.lean ====
section
/-! DEFINITION. The word types of the engine: command and host words of 32 bits (R62, R90), scalars of 128 bits (R3),
tag codes and register numbers of 4 bits (R22, R92). -/

namespace Sys2Proof

/-- A 32-bit word: a command word (R90) or a word of the host bus (R62). -/
abbrev Word := BitVec 32

/-- A 128-bit backing scalar, W = 128 (R3). -/
abbrev Scalar := BitVec 128

/-- A 4-bit tag code (R22): `t` in 0 ... 7 is `Bits{2^t}`, 8 ... 14 is `Bits{K}x{2K}` with `K = 2^(t-8)`, 15 is RAW. -/
abbrev Tag := BitVec 4

/-- The number of a data register, r0 to r15 (R20, R92). -/
abbrev RegIdx := BitVec 4

end Sys2Proof
end

