-- ==== Sys2Proof/Syntax.lean ====
section
/-! DEFINITION. The nineteen commands of spec/opcode_table.json (R94), one constructor per row. Every field is as the
command word holds it (R91): `t` the tag field, `rd`, `rd2` the destinations, `rs1`, `rs2` the sources. -/

namespace Sys2Proof

/-- The commands of the engine, with the register fields R94 lists as used. -/
inductive Instr where
  /-- WRAP, op 0x01 (R120) -/
  | wrap (t : Tag) (rd rs1 : RegIdx)
  /-- UNWRAP, op 0x02 (R121) -/
  | unwrap (t : Tag) (rd rs1 : RegIdx)
  /-- BCAST, op 0x10 (R122) -/
  | bcast (t : Tag) (rd rs1 : RegIdx)
  /-- ANY, op 0x11 (R123) -/
  | any (t : Tag) (rd rs1 : RegIdx)
  /-- POPC, op 0x12 (R124) -/
  | popc (t : Tag) (rd rs1 : RegIdx)
  /-- SPLIT, op 0x20 (R142) -/
  | split (t : Tag) (rd rd2 rs1 : RegIdx)
  /-- MERGE, op 0x21 (R143) -/
  | merge (t : Tag) (rd rs1 rs2 : RegIdx)
  /-- HALVE, op 0x22 (R144) -/
  | halve (t : Tag) (rd rd2 rs1 : RegIdx)
  /-- UNION, op 0x23 (R145) -/
  | union (t : Tag) (rd rs1 rs2 : RegIdx)
  /-- SQUASH, op 0x24 (R146) -/
  | squash (t : Tag) (rd rs1 : RegIdx)
  /-- SUMW2, op 0x30 (R160) -/
  | sumw2 (t : Tag) (rd rs1 : RegIdx)
  /-- SUMW, op 0x31 (R161) -/
  | sumw (t : Tag) (rd rs1 : RegIdx)
  /-- ADD, op 0x32 (R162) -/
  | add (t : Tag) (rd rs1 rs2 : RegIdx)
  /-- MINHWD, op 0x40 (R181) -/
  | minhwd (t : Tag) (rd rs1 rs2 : RegIdx)
  /-- MAXHWD, op 0x41 (R182) -/
  | maxhwd (t : Tag) (rd rs1 rs2 : RegIdx)
  /-- TOX, op 0x50 (R200) -/
  | tox (t : Tag) (rd rs1 : RegIdx)
  /-- FROMX, op 0x51 (R201) -/
  | fromx (t : Tag) (rd rs1 : RegIdx)
  /-- CMPEQ, op 0x52 (R202) -/
  | cmpeq (t : Tag) (rd rs1 rs2 : RegIdx)
  /-- CMPLTU, op 0x53 (R203) -/
  | cmpltu (t : Tag) (rd rs1 rs2 : RegIdx)
deriving DecidableEq, Repr

/-- The pseudo-instruction HWD assembles to MINHWD with the same fields (R99). -/
def Instr.hwd (t : Tag) (rd rs1 rs2 : RegIdx) : Instr := .minhwd t rd rs1 rs2

end Sys2Proof
end

