-- ==== Sys2Proof/WellFormed.lean ====
section
/-! DEFINITION. Which commands are legal: the legal tags of each op (R94; R95 item 2) and the two destinations of SPLIT
and HALVE (R95 item 5). The other conditions of R95 are about words, not commands: Decode.lean checks them. -/

namespace Sys2Proof

/-- `t` in 0 ... 7: a lane-width tag, K = 2^t (R22). -/
def Tag.isLane (t : Tag) : Bool := decide (t.toNat ≤ 7)

/-- `t` in 0 ... 6: a lane width K for which 2K is one too (R94). -/
def Tag.isNarrow (t : Tag) : Bool := decide (t.toNat ≤ 6)

/-- `t` in 8 ... 14: an overflow-tracking tag (R22). -/
def Tag.isOverflow (t : Tag) : Bool := decide (8 ≤ t.toNat) && decide (t.toNat ≤ 14)

/-- The legal values of the tag field, the column "legal t" of R94. -/
def Instr.tagLegal : Instr → Bool
  | .wrap t _ _ => Tag.isLane t
  | .unwrap t _ _ => decide (t.toNat ≤ 14)
  | .bcast t _ _ => Tag.isLane t
  | .any t _ _ => Tag.isLane t
  | .popc t _ _ => Tag.isLane t
  | .split t _ _ _ => Tag.isNarrow t
  | .merge t _ _ _ => Tag.isNarrow t
  | .halve t _ _ _ => Tag.isNarrow t
  | .union t _ _ _ => Tag.isNarrow t
  | .squash t _ _ => Tag.isNarrow t
  | .sumw2 t _ _ => Tag.isNarrow t
  | .sumw t _ _ => Tag.isLane t
  | .add t _ _ _ => Tag.isLane t
  | .minhwd t _ _ _ => Tag.isLane t
  | .maxhwd t _ _ _ => Tag.isLane t
  | .tox t _ _ => Tag.isOverflow t
  | .fromx t _ _ => Tag.isOverflow t
  | .cmpeq _ _ _ _ => true
  | .cmpltu _ _ _ _ => true

/-- SPLIT and HALVE never name one register as both destinations (R95 item 5). -/
def Instr.destinationsDiffer : Instr → Bool
  | .split _ rd rd2 _ => decide (rd ≠ rd2)
  | .halve _ rd rd2 _ => decide (rd ≠ rd2)
  | .wrap _ _ _ | .unwrap _ _ _ | .bcast _ _ _ | .any _ _ _ | .popc _ _ _ | .merge _ _ _ _ | .union _ _ _ _
  | .squash _ _ _ | .sumw2 _ _ _ | .sumw _ _ _ | .add _ _ _ _ | .minhwd _ _ _ _ | .maxhwd _ _ _ _
  | .tox _ _ _ | .fromx _ _ _ | .cmpeq _ _ _ _ | .cmpltu _ _ _ _ => true

/-- A command is legal (R95). -/
def Instr.wellFormed (i : Instr) : Bool := i.tagLegal && i.destinationsDiffer

end Sys2Proof
end

