-- ==== Sys2Proof/Decode.lean ====
section
/-! DEFINITION. The decoder and the encoder of the one command format C (R90 to R95). The decoder is total on 32-bit
words and rejects every illegal word with the name of the condition of R95 that it meets. -/

namespace Sys2Proof

/-- The conditions of R95, in its order. Which one is named where several hold is seen nowhere (log 13). -/
inductive Illegal where
  /-- R95 item 1: no operation has this op -/
  | unassignedOp
  /-- R95 item 2: `t` is outside the op's legal set -/
  | tagOutOfRange
  /-- R95 item 3: a register field the op does not use is not 0 -/
  | unusedField
  /-- R95 item 4: bits 3:0 are not 0 -/
  | zeroField
  /-- R95 item 5: SPLIT or HALVE with rd = rd2 -/
  | sameDestination
deriving DecidableEq, Repr

/-- Bits 31:24 (R91). -/
def opField (w : Word) : BitVec 8 := w.extractLsb' 24 8
/-- Bits 23:20 (R91). -/
def tField (w : Word) : Tag := w.extractLsb' 20 4
/-- Bits 19:16 (R91). -/
def rdField (w : Word) : RegIdx := w.extractLsb' 16 4
/-- Bits 15:12 (R91). -/
def rs1Field (w : Word) : RegIdx := w.extractLsb' 12 4
/-- Bits 11:8 (R91). -/
def rs2Field (w : Word) : RegIdx := w.extractLsb' 8 4
/-- Bits 7:4 (R91). -/
def rd2Field (w : Word) : RegIdx := w.extractLsb' 4 4
/-- Bits 3:0, which must be 0 (R91). -/
def zField (w : Word) : BitVec 4 := w.extractLsb' 0 4

/-- A command that has passed the field checks, accepted when its tag and its destinations are legal. -/
def checkLegal (i : Instr) : Except Illegal Instr :=
  if i.tagLegal then
    if i.destinationsDiffer then .ok i else .error .sameDestination
  else .error .tagOutOfRange

/-- A command that uses rd and rs1 (R94): rs2 and rd2 must be 0 (R95 item 3). -/
def decodeUnary (w : Word) (mk : Tag → RegIdx → RegIdx → Instr) : Except Illegal Instr :=
  if rs2Field w = 0#4 ∧ rd2Field w = 0#4 then checkLegal (mk (tField w) (rdField w) (rs1Field w))
  else .error .unusedField

/-- A command that uses rd, rd2 and rs1 (R94): rs2 must be 0 (R95 item 3). -/
def decodePair (w : Word) (mk : Tag → RegIdx → RegIdx → RegIdx → Instr) : Except Illegal Instr :=
  if rs2Field w = 0#4 then checkLegal (mk (tField w) (rdField w) (rd2Field w) (rs1Field w))
  else .error .unusedField

/-- A command that uses rd, rs1 and rs2 (R94): rd2 must be 0 (R95 item 3). -/
def decodeBinary (w : Word) (mk : Tag → RegIdx → RegIdx → RegIdx → Instr) : Except Illegal Instr :=
  if rd2Field w = 0#4 then checkLegal (mk (tField w) (rdField w) (rs1Field w) (rs2Field w))
  else .error .unusedField

/-- The opcode map of R94. -/
def decodeOp (w : Word) : Except Illegal Instr :=
  match (opField w).toNat with
  | 0x01 => decodeUnary w .wrap
  | 0x02 => decodeUnary w .unwrap
  | 0x10 => decodeUnary w .bcast
  | 0x11 => decodeUnary w .any
  | 0x12 => decodeUnary w .popc
  | 0x20 => decodePair w .split
  | 0x21 => decodeBinary w .merge
  | 0x22 => decodePair w .halve
  | 0x23 => decodeBinary w .union
  | 0x24 => decodeUnary w .squash
  | 0x30 => decodeUnary w .sumw2
  | 0x31 => decodeUnary w .sumw
  | 0x32 => decodeBinary w .add
  | 0x40 => decodeBinary w .minhwd
  | 0x41 => decodeBinary w .maxhwd
  | 0x50 => decodeUnary w .tox
  | 0x51 => decodeUnary w .fromx
  | 0x52 => decodeBinary w .cmpeq
  | 0x53 => decodeBinary w .cmpltu
  | _ => .error .unassignedOp

/-- Decode one command word (R90 to R95). -/
def decode (w : Word) : Except Illegal Instr :=
  if zField w = 0#4 then decodeOp w else .error .zeroField

/-- The word of format C with these fields (R91). -/
def formatC (op : BitVec 8) (t : Tag) (rd rs1 rs2 rd2 : RegIdx) : Word :=
  op ++ t ++ rd ++ rs1 ++ rs2 ++ rd2 ++ 0#4

/-- The word of a command (R91, R94): fields the op does not use are 0. -/
def encode : Instr → Word
  | .wrap t rd rs1 => formatC 0x01#8 t rd rs1 0 0
  | .unwrap t rd rs1 => formatC 0x02#8 t rd rs1 0 0
  | .bcast t rd rs1 => formatC 0x10#8 t rd rs1 0 0
  | .any t rd rs1 => formatC 0x11#8 t rd rs1 0 0
  | .popc t rd rs1 => formatC 0x12#8 t rd rs1 0 0
  | .split t rd rd2 rs1 => formatC 0x20#8 t rd rs1 0 rd2
  | .merge t rd rs1 rs2 => formatC 0x21#8 t rd rs1 rs2 0
  | .halve t rd rd2 rs1 => formatC 0x22#8 t rd rs1 0 rd2
  | .union t rd rs1 rs2 => formatC 0x23#8 t rd rs1 rs2 0
  | .squash t rd rs1 => formatC 0x24#8 t rd rs1 0 0
  | .sumw2 t rd rs1 => formatC 0x30#8 t rd rs1 0 0
  | .sumw t rd rs1 => formatC 0x31#8 t rd rs1 0 0
  | .add t rd rs1 rs2 => formatC 0x32#8 t rd rs1 rs2 0
  | .minhwd t rd rs1 rs2 => formatC 0x40#8 t rd rs1 rs2 0
  | .maxhwd t rd rs1 rs2 => formatC 0x41#8 t rd rs1 rs2 0
  | .tox t rd rs1 => formatC 0x50#8 t rd rs1 0 0
  | .fromx t rd rs1 => formatC 0x51#8 t rd rs1 0 0
  | .cmpeq t rd rs1 rs2 => formatC 0x52#8 t rd rs1 rs2 0
  | .cmpltu t rd rs1 rs2 => formatC 0x53#8 t rd rs1 rs2 0

/-- The command that the decoder reads from the low `nbits` bits of `w` (bit 0 the least significant bit of the word);
none where it rejects the word. A command is one 32-bit word (R90), so there is nothing to lay out (log 12). -/
def decodeTableWord (nbits w : Nat) : Option Instr :=
  match decode (BitVec.ofNat 32 (w % 2 ^ nbits)) with
  | .ok i => some i
  | .error _ => none

end Sys2Proof
end

