-- ==== Sys2Proof/Config.lean ====
section
/-! DEFINITION. What an implementation fixes (QDEPTH, BASE) and the free choice the spec leaves open (which agent moves
next). The constants have no body, so that a statement holds whatever they are. -/

namespace Sys2Proof

/-- The three agents that can change the state (INVENTORY, Agents). -/
inductive Agent where
  /-- the engine itself: takes a command from the queue, executes it -/
  | engine
  /-- the host bus: presents or completes a host access -/
  | bus
  /-- the reset input (R260) -/
  | reset
deriving DecidableEq, Repr, Inhabited

/-- QDEPTH less one. OPEN parameter of the spec (R33, D29), an integer 1 ... 255 (log 1). -/
opaque Config.qdepthPred : Fin 255

/-- QDEPTH, the command-queue depth, 1 <= QDEPTH <= 255 (R33, D29). -/
def Config.qdepth : Nat := Config.qdepthPred.val + 1

/-- The number of the 4 KiB page at which the host register window lies. OPEN parameter BASE (R61, D26; log 2). -/
opaque Config.basePage : Nat

/-- BASE, the host address of the register window, 4 KiB aligned (R61). -/
def Config.base : Nat := 4096 * Config.basePage

/-- FREE VALUE (R70, R269, D39; log 3): the agent that moves when more than one can, by the number of the choice. -/
opaque Config.pick : Nat → Agent

end Sys2Proof
end

