-- ==== Sys2Proof/Machine/State.lean ====
section
/-! DEFINITION. The state of the engine (R20 to R45), the host's side of the register window as plain data, and the
state after reset. -/

namespace Sys2Proof.Machine

/-- A data register: the valid bit (R21), the tag (R22) and the 128 bits (R20). -/
structure DataReg where
  valid : Bool
  tag : Tag
  data : Scalar
deriving DecidableEq, Repr

/-- STATUS.FCAUSE (R225). Codes 4 to 7 are never written, so no value of this type stands for them (log 14). -/
inductive Cause where
  /-- code 0: no fault recorded -/
  | none
  /-- code 1: illegal command word (R224) -/
  | illegal
  /-- code 2: a source register holds no value (R221) -/
  | uninit
  /-- code 3: a source register has the wrong tag (R222) -/
  | tag
deriving DecidableEq, Repr

/-- A host access (R62), with its width in bits and its absolute byte address. Only 32-bit accesses are admitted (R63),
so a write carries 32 bits of data whatever its width (log 8). -/
inductive HostAccess where
  | read (bits addr : Nat)
  | write (bits addr : Nat) (v : Word)
deriving DecidableEq, Repr

/-- What the outside does to the engine: a host access (R62), or the reset input (R260). -/
inductive Input where
  | access (a : HostAccess)
  | reset
deriving DecidableEq, Repr

/-- How a host access ends on the bus. -/
inductive Response where
  /-- a read that completed, with its data -/
  | readData (v : Word)
  /-- a write that completed -/
  | writeDone
  /-- error response to a read; its data (R63: 0) -/
  | refusedRead (v : Word)
  /-- error response to a write (R63) -/
  | refusedWrite
  /-- error response to an access that waited when reset came (R260); no data is stated for it (log 6) -/
  | abortedByReset
  /-- the address is outside the window: not an access to this engine (log 2) -/
  | notSelected
deriving DecidableEq, Repr

/-- Everything the spec gives the machine (INVENTORY, State), then the model's own fields. -/
structure State where
  /-- r0 to r15 (R20) -/
  regs : Vector DataReg 16
  /-- the command queue, oldest word first (R33) -/
  queue : List Word
  /-- the command word being executed, if any (R33) -/
  executing : Option Word
  /-- RETIRED (R32) -/
  retired : Word
  /-- STATUS.FAULT (R35) -/
  fault : Bool
  /-- STATUS.DROP (R35) -/
  drop : Bool
  /-- STATUS.FCAUSE (R35) -/
  fcause : Cause
  /-- STATUS.FOPND: false for rs1, true for rs2 (R35) -/
  fopnd : Bool
  /-- CTRL.FIE (R36) -/
  fie : Bool
  /-- FCMD (R39) -/
  fcmd : Word
  /-- FIDX (R40) -/
  fidx : Word
  /-- the host access that has been presented and waits (R68, R69) -/
  waiting : Option HostAccess
  /-- MODEL: what the outside still will do, in order (log 4) -/
  inputs : List Input
  /-- MODEL: the bus responses so far, newest first (log 4) -/
  responses : List Response
  /-- MODEL: a free value, the agent that moves when more than one can (log 3) -/
  pick : Agent
  /-- MODEL: how many free choices have been drawn (log 3) -/
  draws : Nat
deriving DecidableEq, Repr

/-- The engine right after reset (R45, R260, R261). Nothing is left unspecified (R45). The model's own `pick` is a free
value from the start, the first draw of `Config.pick` (log 3). -/
def State.reset : State where
  regs := Vector.replicate 16 { valid := false, tag := 15#4, data := 0#128 }
  queue := []
  executing := none
  retired := 0#32
  fault := false
  drop := false
  fcause := .none
  fopnd := false
  fie := false
  fcmd := 0#32
  fidx := 0#32
  waiting := none
  inputs := []
  responses := []
  pick := Config.pick 0
  draws := 1

/-- Reasons for the model to stop: there are none. A fault of the engine (R221 to R225) is recorded in the state and is
a NEXT state; no computation faults (R97); nothing else stops the machine. Safe: no behaviour is cut off. -/
inductive Fault where
deriving DecidableEq, Repr

/-- Reasons for the model to refuse an instruction. -/
inductive Refusal where
  /-- raised by an arm of `exec` whose instruction has no meaning yet, by its mnemonic; safe. No arm raises it now. -/
  | notModelled (mnemonic : String)
deriving DecidableEq, Repr

end Sys2Proof.Machine
end

