-- ==== Sys2Proof/Machine/Ops.lean ====
section
/-! DEFINITION. The named operations over the registers and the control state: reading a register, `put` (R25), retiring
(R220), taking a fault (R223) and returning from one (R230), and applying the reset input (R260). -/

namespace Sys2Proof.Machine

/-- Register ri (R20). -/
def State.reg (s : State) (i : RegIdx) : DataReg := s.regs[i.toNat]'i.isLt

/-- Register ri replaced whole. -/
def State.setReg (s : State) (i : RegIdx) (d : DataReg) : State :=
  { s with regs := s.regs.set i.toNat d i.isLt }

/-- `put(i, v, t)`: the only way a command writes a register (R25). -/
def State.put (s : State) (i : RegIdx) (v : Scalar) (t : Tag) : State :=
  s.setReg i { valid := true, tag := t, data := v }

/-- The executing command word, the `w` of R223. The 0 stands only where nothing executes, which no step reaches
(log 11). -/
def State.executingWord (s : State) : Word := s.executing.getD 0#32

/-- Idle: the queue is empty and no command is executing (R33). -/
def State.idle (s : State) : Bool := s.queue.isEmpty && s.executing.isNone

/-- Retire the executing command: RETIRED increases by 1 modulo 2^32 (R32, R220), and the command is done. -/
def State.retire (s : State) : State :=
  { s with retired := s.retired + 1#32, executing := none }

/-- `raise Fault(cause, opnd)` for the executing command word (R223): no register is written, RETIRED is unchanged, the
queue is discarded, DROP is set if it was not empty, and the engine is idle. -/
def State.raiseFault (s : State) (cause : Cause) (opnd : Bool) : State :=
  { s with
    fault := true
    fcause := cause
    fopnd := opnd
    fcmd := s.executingWord
    fidx := s.retired
    drop := s.drop || !s.queue.isEmpty
    queue := []
    executing := none }

/-- CTRL.FIE written (R36). -/
def State.setFie (s : State) (b : Bool) : State := { s with fie := b }

/-- CLRF, the only return from a fault (R230): FAULT, DROP, FCAUSE and FOPND become 0; FCMD and FIDX keep their values.
While FAULT = 0 it changes nothing (R230; log 10). -/
def State.clearFault (s : State) : State :=
  if s.fault then { s with fault := false, drop := false, fcause := .none, fopnd := false } else s

/-- The reset input (R260): every piece of the engine's state takes its reset value, as one step; a host access that
waits ends with an error response. What the outside has still to do and the responses already given are not the
engine's (log 6). -/
def State.applyReset (s : State) : State :=
  { State.reset with
    inputs := s.inputs
    responses := if s.waiting.isSome then .abortedByReset :: s.responses else s.responses
    pick := s.pick
    draws := s.draws }

end Sys2Proof.Machine
end

