-- ==== Sys2Proof/Machine/Operands.lean ====
section
/-! DEFINITION. The one operand form of the engine, a source register that must hold a value with a given tag (R96), the
order of the checks (R226), the tags a command reads and writes (R94), and the shape every command has. -/

namespace Sys2Proof.Machine

/-- Tag 15, RAW (R22). -/
def rawTag : Tag := 15#4

/-- Tag t+1: Bits{2K} where t is Bits{K} (R22, R94). -/
def widerTag (t : Tag) : Tag := t + 1#4

/-- Tag t-7: the Bits{2K} that the overflow-tracking tag t, Bits{K}x{2K}, wraps (R22, R94). -/
def wrappedTag (t : Tag) : Tag := t - 7#4

/-- Why an operand check fails: the cause and FOPND (R221, R222). -/
structure OperandFault where
  cause : Cause
  opnd : Bool
deriving DecidableEq, Repr

/-- Read source register r, which must be valid and hold tag `want`; `opnd` is false for rs1, true for rs2 (R96). -/
def State.readSource (s : State) (r : RegIdx) (want : Tag) (opnd : Bool) : Except OperandFault Scalar :=
  if (s.reg r).valid = false then .error { cause := .uninit, opnd := opnd }
  else if (s.reg r).tag ≠ want then .error { cause := .tag, opnd := opnd }
  else .ok (s.reg r).data

/-- The operand of a command with one source. -/
def State.readOne (s : State) (rs1 : RegIdx) (want : Tag) : Except OperandFault Scalar :=
  s.readSource rs1 want false

/-- The operands of a command with two sources of one tag, checked in the order rs1 then rs2 (R96, R226). -/
def State.readTwo (s : State) (rs1 rs2 : RegIdx) (want : Tag) : Except OperandFault (Scalar × Scalar) :=
  match s.readSource rs1 want false with
  | .error f => .error f
  | .ok a =>
    match s.readSource rs2 want true with
    | .error f => .error f
    | .ok b => .ok (a, b)

/-- The shape of every command: ILLEGAL first (R95, R226), then the operand checks (R96), then the command's writes and
its retirement as one step (R26, R220). All sources are read before any write, since `effect` gets their values. -/
def runCommand {α : Type} (legal : Bool) (operands : Except OperandFault α) (effect : α → State → State)
    (s : State) : Host.Outcome State Fault Refusal :=
  if legal then
    match operands with
    | .error f => .next (s.raiseFault f.cause f.opnd)
    | .ok a => .next (effect a s).retire
  else .next (s.raiseFault .illegal false)

end Sys2Proof.Machine
end

