-- ==== Sys2Proof/Machine/Conversions.lean ====
section
/-! DEFINITION. The commands of 44_conversions.md: TOX, FROMX, CMPEQ, CMPLTU (R200 to R203). -/

namespace Sys2Proof.Machine

/-- A comparison's result as a RAW scalar, 1 or 0 (R34, R202, R203). -/
def truthScalar (b : Bool) : Scalar := if b then 1#128 else 0#128

/-- TOX: Bits{2K} becomes Bits{K}x{2K}, no bit changes and none is checked (R200, D23). -/
def execTox (t : Tag) (rd rs1 : RegIdx) (s : State) : Host.Outcome State Fault Refusal :=
  runCommand (Instr.tox t rd rs1).wellFormed (s.readOne rs1 (wrappedTag t)) (fun a s => s.put rd a t) s

/-- FROMX: Bits{K}x{2K} becomes Bits{2K}, no bit changes (R201). -/
def execFromx (t : Tag) (rd rs1 : RegIdx) (s : State) : Host.Outcome State Fault Refusal :=
  runCommand (Instr.fromx t rd rs1).wellFormed (s.readOne rs1 t) (fun a s => s.put rd a (wrappedTag t)) s

/-- CMPEQ: equality of the two scalars, all 128 bits (R202, D25). -/
def execCmpeq (t : Tag) (rd rs1 rs2 : RegIdx) (s : State) : Host.Outcome State Fault Refusal :=
  runCommand (Instr.cmpeq t rd rs1 rs2).wellFormed (s.readTwo rs1 rs2 t)
    (fun p s => s.put rd (truthScalar (p.1 == p.2)) rawTag) s

/-- CMPLTU: the unsigned order of the two scalars (R203, D25). -/
def execCmpltu (t : Tag) (rd rs1 rs2 : RegIdx) (s : State) : Host.Outcome State Fault Refusal :=
  runCommand (Instr.cmpltu t rd rs1 rs2).wellFormed (s.readTwo rs1 rs2 t)
    (fun p s => s.put rd (truthScalar (decide (p.1.toNat < p.2.toNat))) rawTag) s

end Sys2Proof.Machine
end

