-- ==== Sys2Proof/Machine/Lanes.lean ====
section
/-! DEFINITION. The lane algebra over 128-bit scalars: lanes and packing (R5, 00_scope.md section 5), sums over lanes,
the population count, the broadcast (R122), and the moves between a half and the low halves of double lanes (R140,
R141). -/

namespace Sys2Proof.Machine

/-- K = 2^t, the lane width named by a tag in 0 ... 7 (R22). -/
def laneWidth (t : Tag) : Nat := 2 ^ t.toNat

/-- The OR of `f 0`, ..., `f (n-1)`. -/
def orUpTo : Nat → (Nat → Scalar) → Scalar
  | 0, _ => 0#128
  | n + 1, f => orUpTo n f ||| f n

/-- The sum of `f 0`, ..., `f (n-1)`. -/
def sumUpTo : Nat → (Nat → Nat) → Nat
  | 0, _ => 0
  | n + 1, f => sumUpTo n f + f n

/-- `lane_K(v, i) = v[K*i+K-1 : K*i]`, an unsigned number below 2^K (R5, R6). -/
def lane (K : Nat) (v : Scalar) (i : Nat) : Nat := (v >>> (K * i)).toNat % 2 ^ K

/-- `pack_K(e_0, ..., e_{n-1})`: lane i at width K is `e i mod 2^K` for i < n, the lanes above are 0. -/
def pack (K n : Nat) (e : Nat → Nat) : Scalar :=
  orUpTo n fun i => BitVec.ofNat 128 (e i % 2 ^ K) <<< (K * i)

/-- The number of bits equal to 1 (00_scope.md section 5). -/
def popcount (v : Scalar) : Nat := sumUpTo 128 fun p => (v.getLsbD p).toNat

/-- `|p - q|`, the absolute value of the integer difference of two unsigned integers. -/
def absDiff (p q : Nat) : Nat := (p - q) + (q - p)

/-- BCAST's value: the OR of `e << (K*j)` for j < W/K, truncated to 128 bits (R122, D15). -/
def broadcast (K : Nat) (e : Scalar) : Scalar := orUpTo (128 / K) fun j => e <<< (K * j)

/-- `spread_K(h)`: the K-bit lanes of `h`, in order, in the low halves of the 2K-bit lanes (R140). -/
def spread (K : Nat) (h : BitVec 64) : Scalar :=
  pack (2 * K) (64 / K) fun j => lane K (h.setWidth 128) j

/-- `compact_K(y)`: the low K bits of each 2K-bit lane of `y`, in order (R141, D16). -/
def compact (K : Nat) (y : Scalar) : BitVec 64 :=
  (pack K (64 / K) fun j => lane (2 * K) y j % 2 ^ K).setWidth 64

end Sys2Proof.Machine
end

