-- ==== Sys2Proof/Machine/Distance.lean ====
section
/-! DEFINITION. The commands of 43_distance.md: MINHWD and MAXHWD (R180 to R182). -/

namespace Sys2Proof.Machine

/-- MINHWD's value: `|a_i - b_i|` in every lane (R181, D20). -/
def minDistance (K : Nat) (a b : Scalar) : Scalar :=
  pack K (128 / K) fun i => absDiff (lane K a i) (lane K b i)

/-- One lane of MAXHWD: 2 for the pair (1, 1) at K = 2, else `|p - q|` (R182, D21). -/
def maxDistanceLane (K p q : Nat) : Nat :=
  if K = 2 ∧ p = 1 ∧ q = 1 then 2 else absDiff p q

/-- MAXHWD's value (R182). -/
def maxDistance (K : Nat) (a b : Scalar) : Scalar :=
  pack K (128 / K) fun i => maxDistanceLane K (lane K a i) (lane K b i)

/-- MINHWD (R181). -/
def execMinhwd (t : Tag) (rd rs1 rs2 : RegIdx) (s : State) : Host.Outcome State Fault Refusal :=
  runCommand (Instr.minhwd t rd rs1 rs2).wellFormed (s.readTwo rs1 rs2 t)
    (fun p s => s.put rd (minDistance (laneWidth t) p.1 p.2) t) s

/-- MAXHWD (R182). -/
def execMaxhwd (t : Tag) (rd rs1 rs2 : RegIdx) (s : State) : Host.Outcome State Fault Refusal :=
  runCommand (Instr.maxhwd t rd rs1 rs2).wellFormed (s.readTwo rs1 rs2 t)
    (fun p s => s.put rd (maxDistance (laneWidth t) p.1 p.2) t) s

end Sys2Proof.Machine
end

