-- ==== Sys2Proof/Machine/LaneTypes.lean ====
section
/-! DEFINITION. The commands of 40_lane_types.md: WRAP, UNWRAP, BCAST, ANY, POPC (R120 to R124). -/

namespace Sys2Proof.Machine

/-- ANY's value: lane i is 1 if lane i of `a` is not 0, else 0 (R123). -/
def anyValue (K : Nat) (a : Scalar) : Scalar :=
  pack K (128 / K) fun i => if lane K a i = 0 then 0 else 1

/-- WRAP: a RAW scalar gets tag t, no bit changes (R120). -/
def execWrap (t : Tag) (rd rs1 : RegIdx) (s : State) : Host.Outcome State Fault Refusal :=
  runCommand (Instr.wrap t rd rs1).wellFormed (s.readOne rs1 rawTag) (fun a s => s.put rd a t) s

/-- UNWRAP: a value of tag t becomes RAW, no bit changes (R121). -/
def execUnwrap (t : Tag) (rd rs1 : RegIdx) (s : State) : Host.Outcome State Fault Refusal :=
  runCommand (Instr.unwrap t rd rs1).wellFormed (s.readOne rs1 t) (fun a s => s.put rd a rawTag) s

/-- BCAST: a RAW scalar into every lane of width K = 2^t (R122). -/
def execBcast (t : Tag) (rd rs1 : RegIdx) (s : State) : Host.Outcome State Fault Refusal :=
  runCommand (Instr.bcast t rd rs1).wellFormed (s.readOne rs1 rawTag)
    (fun e s => s.put rd (broadcast (laneWidth t) e) t) s

/-- ANY: 1 in every lane that is not 0 (R123). -/
def execAny (t : Tag) (rd rs1 : RegIdx) (s : State) : Host.Outcome State Fault Refusal :=
  runCommand (Instr.any t rd rs1).wellFormed (s.readOne rs1 t) (fun a s => s.put rd (anyValue (laneWidth t) a) t) s

/-- POPC: the count of all 128 bits, as a RAW scalar (R124). -/
def execPopc (t : Tag) (rd rs1 : RegIdx) (s : State) : Host.Outcome State Fault Refusal :=
  runCommand (Instr.popc t rd rs1).wellFormed (s.readOne rs1 t)
    (fun a s => s.put rd (BitVec.ofNat 128 (popcount a)) rawTag) s

end Sys2Proof.Machine
end

