-- ==== Sys2Proof/Machine/Masks.lean ====
section
/-! DEFINITION. The two constant mask tables (R27 to R30). -/

namespace Sys2Proof.Machine

/-- Bit p of LEFT_MASKS[l] is 1 exactly when `(p mod 2^(7-l)) >= 2^(6-l)` (R27). -/
def leftMask (l : Nat) : Scalar :=
  pack 1 128 fun p => (decide (2 ^ (6 - l) ≤ p % 2 ^ (7 - l))).toNat

/-- RIGHT_MASKS[l] = ~LEFT_MASKS[l] (R27). -/
def rightMask (l : Nat) : Scalar := ~~~leftMask l

/-- The level that separates K-bit lanes inside 2K-bit blocks, `6 - log2 K`, for K = 2^t (R29). -/
def maskLevel (t : Tag) : Nat := 6 - t.toNat

end Sys2Proof.Machine
end

