-- ==== Sys2Proof/Machine/SplitUnion.lean ====
section
/-! DEFINITION. The commands of 41_split_union.md: SPLIT, MERGE, HALVE, UNION, SQUASH (R140 to R146). The tag t names the
narrower width K = 2^t. -/

namespace Sys2Proof.Machine

/-- SPLIT's rd value: the odd-numbered lanes, shifted into the low halves (R142). -/
def splitHigh (t : Tag) (a : Scalar) : Scalar := (a &&& leftMask (maskLevel t)) >>> laneWidth t

/-- SPLIT's rd2 value: the even-numbered lanes (R142). -/
def splitLow (t : Tag) (a : Scalar) : Scalar := a &&& rightMask (maskLevel t)

/-- MERGE's value: the low halves of the 2K-bit lanes of `hi` and `lo`, interleaved (R143, D16). -/
def mergeValue (t : Tag) (hi lo : Scalar) : Scalar :=
  ((hi &&& rightMask (maskLevel t)) <<< laneWidth t) ||| (lo &&& rightMask (maskLevel t))

/-- HALVE's rd value, from the upper 64 bits (R144). -/
def halveLeft (K : Nat) (a : Scalar) : Scalar := spread K (a.extractLsb' 64 64)

/-- HALVE's rd2 value, from the lower 64 bits (R144). -/
def halveRight (K : Nat) (a : Scalar) : Scalar := spread K (a.extractLsb' 0 64)

/-- UNION's value: `left` compacted in the upper 64 bits, `right` in the lower (R145). -/
def unionValue (K : Nat) (left right : Scalar) : Scalar :=
  ((compact K left).setWidth 128 <<< 64) ||| (compact K right).setWidth 128

/-- SQUASH's value: the lower 64 bits hold the compacted value, the upper 64 are 0 (R146). -/
def squashValue (K : Nat) (y : Scalar) : Scalar := (compact K y).setWidth 128

/-- SPLIT: odd lanes to rd, even lanes to rd2, both tagged t+1, written together (R142, R26). -/
def execSplit (t : Tag) (rd rd2 rs1 : RegIdx) (s : State) : Host.Outcome State Fault Refusal :=
  runCommand (Instr.split t rd rd2 rs1).wellFormed (s.readOne rs1 t)
    (fun a s => (s.put rd (splitHigh t a) (widerTag t)).put rd2 (splitLow t a) (widerTag t)) s

/-- MERGE: the inverse of SPLIT, rs1 the upper lanes and rs2 the lower ones (R143). -/
def execMerge (t : Tag) (rd rs1 rs2 : RegIdx) (s : State) : Host.Outcome State Fault Refusal :=
  runCommand (Instr.merge t rd rs1 rs2).wellFormed (s.readTwo rs1 rs2 (widerTag t))
    (fun p s => s.put rd (mergeValue t p.1 p.2) t) s

/-- HALVE: the upper 64 bits spread to rd, the lower 64 bits to rd2, both tagged t+1, written together (R144, R26). -/
def execHalve (t : Tag) (rd rd2 rs1 : RegIdx) (s : State) : Host.Outcome State Fault Refusal :=
  runCommand (Instr.halve t rd rd2 rs1).wellFormed (s.readOne rs1 t)
    (fun a s => (s.put rd (halveLeft (laneWidth t) a) (widerTag t)).put rd2 (halveRight (laneWidth t) a)
      (widerTag t)) s

/-- UNION: the inverse of HALVE, rs1 the left half and rs2 the right one (R145). -/
def execUnion (t : Tag) (rd rs1 rs2 : RegIdx) (s : State) : Host.Outcome State Fault Refusal :=
  runCommand (Instr.union t rd rs1 rs2).wellFormed (s.readTwo rs1 rs2 (widerTag t))
    (fun p s => s.put rd (unionValue (laneWidth t) p.1 p.2) t) s

/-- SQUASH: one 2K-bit-lane value compacted into the lower 64 bits (R146). -/
def execSquash (t : Tag) (rd rs1 : RegIdx) (s : State) : Host.Outcome State Fault Refusal :=
  runCommand (Instr.squash t rd rs1).wellFormed (s.readOne rs1 (widerTag t))
    (fun y s => s.put rd (squashValue (laneWidth t) y) t) s

end Sys2Proof.Machine
end

