-- ==== Sys2Proof/Machine/Sums.lean ====
section
/-! DEFINITION. The commands of 42_sums.md: SUMW2, SUMW, ADD (R160 to R162). -/

namespace Sys2Proof.Machine

/-- SUMW2's value: odd and even lanes added with one 128-bit addition (R160). -/
def sumPairs (t : Tag) (a : Scalar) : Scalar :=
  ((a &&& leftMask (maskLevel t)) >>> laneWidth t) + (a &&& rightMask (maskLevel t))

/-- SUMW's sum of all lanes (R161). -/
def sumLanes (K : Nat) (a : Scalar) : Nat := sumUpTo (128 / K) fun i => lane K a i

/-- SUMW2: adjacent lanes summed, lane width doubled, tagged t+1 (R160, D17). -/
def execSumw2 (t : Tag) (rd rs1 : RegIdx) (s : State) : Host.Outcome State Fault Refusal :=
  runCommand (Instr.sumw2 t rd rs1).wellFormed (s.readOne rs1 t)
    (fun a s => s.put rd (sumPairs t a) (widerTag t)) s

/-- SUMW: the sum of all lanes as a RAW scalar (R161, D18). -/
def execSumw (t : Tag) (rd rs1 : RegIdx) (s : State) : Host.Outcome State Fault Refusal :=
  runCommand (Instr.sumw t rd rs1).wellFormed (s.readOne rs1 t)
    (fun a s => s.put rd (BitVec.ofNat 128 (sumLanes (laneWidth t) a)) rawTag) s

/-- ADD: one 128-bit addition modulo 2^128; carries cross lanes (R162, D24). -/
def execAdd (t : Tag) (rd rs1 rs2 : RegIdx) (s : State) : Host.Outcome State Fault Refusal :=
  runCommand (Instr.add t rd rs1 rs2).wellFormed (s.readTwo rs1 rs2 t) (fun p s => s.put rd (p.1 + p.2) t) s

end Sys2Proof.Machine
end

