-- ==== Sys2Proof/Machine/Dispatch.lean ====
section
/-! DEFINITION. The dispatch from a command to its meaning, one arm per constructor of Instr. -/

namespace Sys2Proof.Machine

def exec (i : Instr) (s : State) : Host.Outcome State Fault Refusal :=
  match i with
  | .wrap t rd rs1 => Sys2Proof.Machine.execWrap t rd rs1 s
  | .unwrap t rd rs1 => Sys2Proof.Machine.execUnwrap t rd rs1 s
  | .bcast t rd rs1 => Sys2Proof.Machine.execBcast t rd rs1 s
  | .any t rd rs1 => Sys2Proof.Machine.execAny t rd rs1 s
  | .popc t rd rs1 => Sys2Proof.Machine.execPopc t rd rs1 s
  | .split t rd rd2 rs1 => Sys2Proof.Machine.execSplit t rd rd2 rs1 s
  | .merge t rd rs1 rs2 => Sys2Proof.Machine.execMerge t rd rs1 rs2 s
  | .halve t rd rd2 rs1 => Sys2Proof.Machine.execHalve t rd rd2 rs1 s
  | .union t rd rs1 rs2 => Sys2Proof.Machine.execUnion t rd rs1 rs2 s
  | .squash t rd rs1 => Sys2Proof.Machine.execSquash t rd rs1 s
  | .sumw2 t rd rs1 => Sys2Proof.Machine.execSumw2 t rd rs1 s
  | .sumw t rd rs1 => Sys2Proof.Machine.execSumw t rd rs1 s
  | .add t rd rs1 rs2 => Sys2Proof.Machine.execAdd t rd rs1 rs2 s
  | .minhwd t rd rs1 rs2 => Sys2Proof.Machine.execMinhwd t rd rs1 rs2 s
  | .maxhwd t rd rs1 rs2 => Sys2Proof.Machine.execMaxhwd t rd rs1 rs2 s
  | .tox t rd rs1 => Sys2Proof.Machine.execTox t rd rs1 s
  | .fromx t rd rs1 => Sys2Proof.Machine.execFromx t rd rs1 s
  | .cmpeq t rd rs1 rs2 => Sys2Proof.Machine.execCmpeq t rd rs1 rs2 s
  | .cmpltu t rd rs1 rs2 => Sys2Proof.Machine.execCmpltu t rd rs1 rs2 s

end Sys2Proof.Machine
end

