-- ==== Sys2Proof/Machine/Flags.lean ====
section
/-! DEFINITION. The engine has no flags and no condition codes (R34). This file holds the words made of status bits:
STATUS (R35), CTRL (R36), and the output `irq` (R44). -/

namespace Sys2Proof.Machine

/-- The code of a cause in STATUS.FCAUSE (R225). -/
def Cause.code : Cause → BitVec 3
  | .none => 0#3
  | .illegal => 1#3
  | .uninit => 2#3
  | .tag => 3#3

/-- STATUS.BUSY: the engine is not idle (R35). -/
def State.busy (s : State) : Bool := !s.idle

/-- STATUS.QLEVEL: the number of words in the queue (R35; log 1). -/
def State.qlevel (s : State) : BitVec 8 := BitVec.ofNat 8 s.queue.length

/-- The STATUS word (R35), from bit 31 down; bits 31:16 and bit 3 read 0. SYNC returns the same word (R42). -/
def State.statusWord (s : State) : Word :=
  0#16 ++ s.qlevel ++ BitVec.ofBool s.fopnd ++ s.fcause.code ++ 0#1 ++ BitVec.ofBool s.drop ++
    BitVec.ofBool s.fault ++ BitVec.ofBool s.busy

/-- The CTRL word as read: FIE in bit 0, CLRF and all other bits read 0 (R36). -/
def State.ctrlWord (s : State) : Word := (BitVec.ofBool s.fie).setWidth 32

/-- The output `irq`, the level STATUS.FAULT & CTRL.FIE (R44, R232). -/
def State.irq (s : State) : Bool := s.fault && s.fie

end Sys2Proof.Machine
end

