-- ==== Sys2Proof/Machine/HostPort.lean ====
section
/-! DEFINITION. The host register window (R61), and what a host read and a host write do (R62 to R70, R78). -/

namespace Sys2Proof.Machine

/-- The registers of the window (R61). -/
inductive Port where
  | id
  | cfg
  | status
  | ctrl
  | cmd
  | fcmd
  | fidx
  | retired
  | sync
  /-- DATA[i] word j -/
  | data (i : RegIdx) (j : BitVec 2)
  /-- TAG[i] -/
  | tag (i : RegIdx)
deriving DecidableEq, Repr

/-- The DATA and TAG words, 0x20 bytes a register from offset 0x100 (R61). -/
def filePort (rel : Nat) : Option Port :=
  if rel % 0x20 < 0x10 then some (.data (BitVec.ofNat 4 (rel / 0x20)) (BitVec.ofNat 2 (rel % 0x20 / 4)))
  else if rel % 0x20 = 0x10 then some (.tag (BitVec.ofNat 4 (rel / 0x20)))
  else none

/-- The register at an aligned offset of the window; none where R61 reserves it. -/
def portAt (off : Nat) : Option Port :=
  match off with
  | 0x000 => some .id
  | 0x004 => some .cfg
  | 0x008 => some .status
  | 0x00C => some .ctrl
  | 0x010 => some .cmd
  | 0x014 => some .fcmd
  | 0x018 => some .fidx
  | 0x01C => some .retired
  | 0x020 => some .sync
  | off => if 0x100 ≤ off ∧ off < 0x300 then filePort (off - 0x100) else none

/-- The register that a `bits`-wide access at `off` reaches: none for an access that is not 32 bits, not aligned, or at
a reserved offset (R62, R63). -/
def selectPort (bits off : Nat) : Option Port :=
  if bits = 32 ∧ off % 4 = 0 then portAt off else none

/-- ID: 0x5357 and the command-set revision, 1 (R37, R2). -/
def idWord : Word := 0x53570001#32

/-- CFG: 0, QDEPTH, W/8, NREG from bit 31 down (R38). -/
def cfgWord : Word := 0#8 ++ BitVec.ofNat 8 Config.qdepth ++ 16#8 ++ 16#8

/-- TAG[i] as read: bit 4 valid, bits 3:0 the tag (R67). -/
def tagWord (d : DataReg) : Word := (BitVec.ofBool d.valid ++ d.tag).setWidth 32

/-- DATA[i] word j: bits 32*j+31 down to 32*j (R64, R66). -/
def dataWord (x : Scalar) (j : BitVec 2) : Word := x.extractLsb' (32 * j.toNat) 32

/-- `x` with bits 32*j+31 down to 32*j replaced by `v` (R66). -/
def setDataWord (x : Scalar) (j : BitVec 2) (v : Word) : Scalar :=
  (x &&& ~~~((0xFFFFFFFF#128) <<< (32 * j.toNat))) ||| (v.setWidth 128 <<< (32 * j.toNat))

/-- Whether an access to a register waits for idle (R61, R69). -/
def Port.waitsForIdle : Port → Bool
  | .sync => true
  | .data _ _ => true
  | .tag _ => true
  | .id | .cfg | .status | .ctrl | .cmd | .fcmd | .fidx | .retired => false

/-- The word a register reads as; none for CMD, which cannot be read (R43, R63). -/
def State.readPort (s : State) : Port → Option Word
  | .id => some idWord
  | .cfg => some cfgWord
  | .status => some s.statusWord
  | .ctrl => some s.ctrlWord
  | .cmd => none
  | .fcmd => some s.fcmd
  | .fidx => some s.fidx
  | .retired => some s.retired
  | .sync => some s.statusWord
  | .data i j => some (dataWord (s.reg i).data j)
  | .tag i => some (tagWord (s.reg i))

/-- What becomes of a host access: it waits, or it completes with a response and leaves a state. -/
inductive BusResult where
  | waits
  | completes (r : Response) (s : State)
deriving DecidableEq, Repr

/-- The effect of a CMD write (R68): dropped while faulted, waits while the queue is full, else appended. The word is
not checked (R68) and is fixed from here on (R75). -/
def State.offerCommand (s : State) (w : Word) : BusResult :=
  if s.fault then .completes .writeDone { s with drop := true }
  else if s.queue.length < Config.qdepth then .completes .writeDone { s with queue := s.queue ++ [w] }
  else .waits

/-- The effect of a CTRL write: FIE from bit 0, and with bit 8 (CLRF) the fault state is cleared, as one step (R36,
R230). -/
def State.writeCtrl (s : State) (v : Word) : State :=
  if v.getLsbD 8 then (s.setFie (v.getLsbD 0)).clearFault else s.setFie (v.getLsbD 0)

/-- The effect of a DATA write: 32 bits of data, neither tag nor valid (R66). -/
def State.writeData (s : State) (i : RegIdx) (j : BitVec 2) (v : Word) : State :=
  s.setReg i { s.reg i with data := setDataWord (s.reg i).data j v }

/-- The effect of a TAG write: tag from bits 3:0, valid from bit 4; bits 31:5 are ignored (R67). -/
def State.writeTag (s : State) (i : RegIdx) (v : Word) : State :=
  s.setReg i { s.reg i with tag := v.extractLsb' 0 4, valid := v.getLsbD 4 }

/-- `HostRead(off)` of width `bits` (R62): refused with data 0 (R63), or waits for idle (R69), or returns the register.
No read changes the state (R78). -/
def State.hostRead (s : State) (bits off : Nat) : BusResult :=
  match selectPort bits off with
  | none => .completes (.refusedRead 0#32) s
  | some p =>
    match s.readPort p with
    | none => .completes (.refusedRead 0#32) s
    | some v => if p.waitsForIdle && !s.idle then .waits else .completes (.readData v) s

/-- `HostWrite(off, v)` of width `bits` (R62): refused with no effect (R63), or waits (R68, R69), or writes. -/
def State.hostWrite (s : State) (bits off : Nat) (v : Word) : BusResult :=
  match selectPort bits off with
  | some .cmd => s.offerCommand v
  | some .ctrl => .completes .writeDone (s.writeCtrl v)
  | some (.data i j) => if s.idle then .completes .writeDone (s.writeData i j v) else .waits
  | some (.tag i) => if s.idle then .completes .writeDone (s.writeTag i v) else .waits
  | some .id | some .cfg | some .status | some .fcmd | some .fidx | some .retired | some .sync =>
    .completes .refusedWrite s
  | none => .completes .refusedWrite s

/-- The offset of an address in the window at BASE (R61); none outside the window (log 2). -/
def windowOffset (addr : Nat) : Option Nat :=
  if Config.base ≤ addr ∧ addr < Config.base + 4096 then some (addr - Config.base) else none

/-- A host access at an absolute address. -/
def State.hostAccess (s : State) : HostAccess → BusResult
  | .read bits addr =>
    match windowOffset addr with
    | none => .completes .notSelected s
    | some off => s.hostRead bits off
  | .write bits addr v =>
    match windowOffset addr with
    | none => .completes .notSelected s
    | some off => s.hostWrite bits off v

/-- Byte b of a word, bits 8b+7 down to 8b (R64). -/
def wordByte (w : Word) (b : Nat) : BitVec 8 := w.extractLsb' (8 * b) 8

/-- The byte at an offset of the window as a byte-addressed bus numbers it (R64): byte `off mod 4` of the register word
at the aligned offset below. Only whole words can be accessed (R63). -/
def State.windowByte (s : State) (off : Nat) : Option (BitVec 8) :=
  match selectPort 32 (off - off % 4) with
  | none => none
  | some p => (s.readPort p).map fun w => wordByte w (off % 4)

end Sys2Proof.Machine
end

