-- ==== Sys2Proof/Machine/Engine.lean ====
section
/-! DEFINITION. The moves of the three agents (INVENTORY, Agents) and the choice among them: the engine takes or executes
a command (R33, R71), the host bus presents or completes an access (R68, R69, R72), the reset input resets (R260). -/

namespace Sys2Proof.Machine

/-- The engine executes the word it has started (R71): the decoded command, or ILLEGAL (R95, R224). -/
def State.executeWord (s : State) (w : Word) : Host.Outcome State Fault Refusal :=
  match decode w with
  | .ok i => exec i s
  | .error _ => .next (s.raiseFault .illegal false)

/-- The engine's move: execute the command it has started, or else start the head of the queue, which leaves the queue
(R33; log 5). -/
def State.engineMove (s : State) : Host.Outcome State Fault Refusal :=
  match s.executing with
  | some w => s.executeWord w
  | none =>
    match s.queue with
    | [] => .next s
    | w :: rest => .next { s with queue := rest, executing := some w }

/-- The engine can move: it is not faulted (R228) and not idle (R33, R267). -/
def State.engineCanMove (s : State) : Bool := !s.fault && !s.idle

/-- Present an access, or try the waiting one again: it completes, or it waits (R68, R69). -/
def State.tryAccess (s : State) (a : HostAccess) : State :=
  match s.hostAccess a with
  | .waits => { s with waiting := some a }
  | .completes r s' => { s' with waiting := none, responses := r :: s'.responses }

/-- The bus's move: the waiting access, or else the next access of the outside, in the host's order (R72). -/
def State.busMove (s : State) : State :=
  match s.waiting with
  | some a => s.tryAccess a
  | none =>
    match s.inputs with
    | .access a :: rest => { s with inputs := rest }.tryAccess a
    | .reset :: _ => s
    | [] => s

/-- The bus can move: the waiting access completes now, or none waits and the outside presents one. -/
def State.busCanMove (s : State) : Bool :=
  match s.waiting with
  | some a =>
    match s.hostAccess a with
    | .waits => false
    | .completes _ _ => true
  | none =>
    match s.inputs with
    | .access _ :: _ => true
    | .reset :: _ => false
    | [] => false

/-- The reset input's move (R260). -/
def State.resetMove (s : State) : State :=
  match s.inputs with
  | .reset :: rest => { s with inputs := rest }.applyReset
  | .access _ :: _ => s
  | [] => s

/-- The reset input can move: it is the outside's next event, whether or not an access waits (R260; log 6). -/
def State.resetCanMove (s : State) : Bool :=
  match s.inputs with
  | .reset :: _ => true
  | .access _ :: _ => false
  | [] => false

/-- Whether an agent can move. -/
def State.canMove (s : State) : Agent → Bool
  | .engine => s.engineCanMove
  | .bus => s.busCanMove
  | .reset => s.resetCanMove

/-- The agents that can move. -/
def State.movers (s : State) : List Agent := [Agent.engine, Agent.bus, Agent.reset].filter s.canMove

/-- The move of one agent. -/
def State.move (s : State) : Agent → Host.Outcome State Fault Refusal
  | .engine => s.engineMove
  | .bus => .next s.busMove
  | .reset => .next s.resetMove

/-- Draw the next free choice (log 3). -/
def State.draw (s : State) : State :=
  { s with pick := Config.pick s.draws, draws := s.draws + 1 }

/-- One move of the whole machine. Where one agent can move, it does; where several can, the free value `pick` says
which (R70, R269; log 3); where none can, nothing changes (R261). -/
def State.advance (s : State) : Host.Outcome State Fault Refusal :=
  match s.movers with
  | [] => .next s
  | [a] => s.move a
  | a :: _ :: _ => s.draw.move (if s.canMove s.pick then s.pick else a)

/-- `s` about to execute the word `w`: the engine has started it, is not faulted, and moves next. -/
def State.startWord (s : State) (w : Word) : State :=
  { s with executing := some w, fault := false, pick := .engine }

end Sys2Proof.Machine
end

