-- ==== Sys2Proof/Machine/Step.lean ====
section
/-! DEFINITION. The step, and where an instruction stands for the step to run it next. -/

namespace Sys2Proof.Machine

/-- One step of the machine. -/
def step (s : State) : Host.Outcome State Fault Refusal := s.advance

/-- `s` with the instruction whose low `nbits` bits are those of `w` as the word the engine has started, so that the
next step executes it (log 4). -/
def State.withFetchWord (s : State) (nbits w : Nat) : State :=
  s.startWord (BitVec.ofNat 32 (w % 2 ^ nbits))

end Sys2Proof.Machine
end

