-- ==== Sys2Proof/Machine/Assembler.lean ====
section
/-! DEFINITION. The assembler syntax (R98) and the pseudo-instruction HWD (R99), as functions between a line of text (a
list of characters) and a command. No step of the machine uses this file. -/

namespace Sys2Proof.Machine

/-- The assembler suffixes by tag code (R22), in lower case. -/
def suffixNames : List (List Char) :=
  [['b', '1'], ['b', '2'], ['b', '4'], ['b', '8'], ['b', '1', '6'], ['b', '3', '2'], ['b', '6', '4'],
    ['b', '1', '2', '8'], ['b', '1', 'x', '2'], ['b', '2', 'x', '4'], ['b', '4', 'x', '8'],
    ['b', '8', 'x', '1', '6'], ['b', '1', '6', 'x', '3', '2'], ['b', '3', '2', 'x', '6', '4'],
    ['b', '6', '4', 'x', '1', '2', '8'], ['r', 'a', 'w']]

/-- The register names r0 ... r15 (R98). -/
def registerNames : List (List Char) :=
  [['r', '0'], ['r', '1'], ['r', '2'], ['r', '3'], ['r', '4'], ['r', '5'], ['r', '6'], ['r', '7'], ['r', '8'],
    ['r', '9'], ['r', '1', '0'], ['r', '1', '1'], ['r', '1', '2'], ['r', '1', '3'], ['r', '1', '4'],
    ['r', '1', '5']]

/-- The position of `x` in a list, counted from `n`. -/
def positionFrom (x : List Char) : Nat → List (List Char) → Option Nat
  | _, [] => none
  | n, y :: ys => if x = y then some n else positionFrom x (n + 1) ys

/-- The tag a suffix names (R22, R98), the suffix in lower case. -/
def parseSuffix (cs : List Char) : Option Tag := (positionFrom cs 0 suffixNames).map (BitVec.ofNat 4)

/-- The register a name names (R98). -/
def parseRegister (cs : List Char) : Option RegIdx := (positionFrom cs 0 registerNames).map (BitVec.ofNat 4)

/-- The command of a mnemonic in lower case with its operands in the order of R98; HWD is MINHWD (R99). -/
def buildCommand (mnemonic : List Char) (t : Tag) (operands : List RegIdx) : Option Instr :=
  match String.ofList mnemonic, operands with
  | "wrap", [rd, rs1] => some (.wrap t rd rs1)
  | "unwrap", [rd, rs1] => some (.unwrap t rd rs1)
  | "bcast", [rd, rs1] => some (.bcast t rd rs1)
  | "any", [rd, rs1] => some (.any t rd rs1)
  | "popc", [rd, rs1] => some (.popc t rd rs1)
  | "split", [rd, rd2, rs1] => some (.split t rd rd2 rs1)
  | "merge", [rd, rs1, rs2] => some (.merge t rd rs1 rs2)
  | "halve", [rd, rd2, rs1] => some (.halve t rd rd2 rs1)
  | "union", [rd, rs1, rs2] => some (.union t rd rs1 rs2)
  | "squash", [rd, rs1] => some (.squash t rd rs1)
  | "sumw2", [rd, rs1] => some (.sumw2 t rd rs1)
  | "sumw", [rd, rs1] => some (.sumw t rd rs1)
  | "add", [rd, rs1, rs2] => some (.add t rd rs1 rs2)
  | "minhwd", [rd, rs1, rs2] => some (.minhwd t rd rs1 rs2)
  | "maxhwd", [rd, rs1, rs2] => some (.maxhwd t rd rs1 rs2)
  | "hwd", [rd, rs1, rs2] => some (Instr.hwd t rd rs1 rs2)
  | "tox", [rd, rs1] => some (.tox t rd rs1)
  | "fromx", [rd, rs1] => some (.fromx t rd rs1)
  | "cmpeq", [rd, rs1, rs2] => some (.cmpeq t rd rs1 rs2)
  | "cmpltu", [rd, rs1, rs2] => some (.cmpltu t rd rs1 rs2)
  | _, _ => none

/-- The pieces of a text between the separators `c`. -/
def splitAtChar (c : Char) : List Char → List (List Char)
  | [] => [[]]
  | x :: xs =>
    if x = c then [] :: splitAtChar c xs
    else
      match splitAtChar c xs with
      | [] => [[x]]
      | p :: ps => (x :: p) :: ps

/-- A space or a tab (log 15). -/
def isBlank (c : Char) : Bool := c == ' ' || c == '\t'

/-- The text without blanks at either end. -/
def trimBlanks (cs : List Char) : List Char :=
  (((cs.dropWhile isBlank).reverse).dropWhile isBlank).reverse

/-- All of a list of registers, or none if one of the names is not a register. -/
def parseRegisters : List (List Char) → Option (List RegIdx)
  | [] => some []
  | x :: xs =>
    match parseRegister (trimBlanks x), parseRegisters xs with
    | some r, some rs => some (r :: rs)
    | _, _ => none

/-- Assemble one line `MNEMONIC.suffix operands` (R98): a comment runs from `;` to the end of the line; mnemonic and
suffix are case-insensitive; operands are separated by commas. -/
def assemble (line : List Char) : Option Instr :=
  let text := trimBlanks (line.takeWhile (· ≠ ';'))
  let head := (text.takeWhile fun c => !isBlank c).map Char.toLower
  let rest := text.dropWhile fun c => !isBlank c
  match splitAtChar '.' head with
  | [mnemonic, suffix] =>
    match parseSuffix suffix, parseRegisters (splitAtChar ',' rest) with
    | some t, some operands => buildCommand mnemonic t operands
    | _, _ => none
  | _ => none

/-- The mnemonic, tag and operands of a command, in the order of R98; MINHWD prints as MINHWD (R99). -/
def asmParts : Instr → String × Tag × List RegIdx
  | .wrap t rd rs1 => ("WRAP", t, [rd, rs1])
  | .unwrap t rd rs1 => ("UNWRAP", t, [rd, rs1])
  | .bcast t rd rs1 => ("BCAST", t, [rd, rs1])
  | .any t rd rs1 => ("ANY", t, [rd, rs1])
  | .popc t rd rs1 => ("POPC", t, [rd, rs1])
  | .split t rd rd2 rs1 => ("SPLIT", t, [rd, rd2, rs1])
  | .merge t rd rs1 rs2 => ("MERGE", t, [rd, rs1, rs2])
  | .halve t rd rd2 rs1 => ("HALVE", t, [rd, rd2, rs1])
  | .union t rd rs1 rs2 => ("UNION", t, [rd, rs1, rs2])
  | .squash t rd rs1 => ("SQUASH", t, [rd, rs1])
  | .sumw2 t rd rs1 => ("SUMW2", t, [rd, rs1])
  | .sumw t rd rs1 => ("SUMW", t, [rd, rs1])
  | .add t rd rs1 rs2 => ("ADD", t, [rd, rs1, rs2])
  | .minhwd t rd rs1 rs2 => ("MINHWD", t, [rd, rs1, rs2])
  | .maxhwd t rd rs1 rs2 => ("MAXHWD", t, [rd, rs1, rs2])
  | .tox t rd rs1 => ("TOX", t, [rd, rs1])
  | .fromx t rd rs1 => ("FROMX", t, [rd, rs1])
  | .cmpeq t rd rs1 rs2 => ("CMPEQ", t, [rd, rs1, rs2])
  | .cmpltu t rd rs1 rs2 => ("CMPLTU", t, [rd, rs1, rs2])

/-- The entry of a list of names at a 4-bit index. -/
def nameAt (names : List (List Char)) (i : BitVec 4) : List Char := names.getD i.toNat []

/-- Operands printed with ", " between them. -/
def printOperands : List RegIdx → List Char
  | [] => []
  | [r] => nameAt registerNames r
  | r :: rs => nameAt registerNames r ++ [',', ' '] ++ printOperands rs

/-- The line `MNEMONIC.suffix operands` (R98), in the print layout of log 15. -/
def asmLine (mnemonic : List Char) (t : Tag) (operands : List RegIdx) : List Char :=
  mnemonic ++ ['.'] ++ nameAt suffixNames t ++ [' '] ++ printOperands operands

/-- Disassemble a command (R98, R99). -/
def disassemble (i : Instr) : List Char := asmLine (asmParts i).1.toList (asmParts i).2.1 (asmParts i).2.2

end Sys2Proof.Machine
end

