-- ==== Sys2Proof/Safety.lean ====
section
/-! DEFINITION. The terms claims are stated in: the invariant, when an operand can be read, what retiring and taking a
fault leave (written out from R220 and R223, not from the operations), the columns of R94 as data, and runs. -/

namespace Sys2Proof.Machine

/-- The invariant every step keeps: the queue holds at most QDEPTH words (R33); a faulted engine is idle (R228); no
fault field is set while FAULT = 0, and a recorded fault has a cause (R225); FOPND is 0 for ILLEGAL (R35). -/
def State.Inv (s : State) : Prop :=
  s.queue.length ≤ Config.qdepth ∧
  (s.fault = true → s.idle = true) ∧
  (s.fault = true → s.fcause ≠ .none) ∧
  (s.fault = false → s.drop = false ∧ s.fcause = .none ∧ s.fopnd = false) ∧
  (s.fcause = .illegal → s.fopnd = false)

/-- Register r holds a value of tag t, so that a command may read it (R96). -/
def State.Holds (s : State) (r : RegIdx) (t : Tag) : Prop :=
  (s.reg r).valid = true ∧ (s.reg r).tag = t

/-- From `s` to `s'` nothing but the data registers changes, except that RETIRED increases by 1 modulo 2^32 and the
executing command is done (R220). -/
def State.Retired (s s' : State) : Prop :=
  s' = { s with regs := s'.regs, retired := s.retired + 1#32, executing := none }

/-- From `s` to `s'` a command retires having written `d` to register rd and to no other register. -/
def State.RetiredWriting (s s' : State) (rd : RegIdx) (d : DataReg) : Prop :=
  s.Retired s' ∧ s'.reg rd = d ∧ ∀ r, r ≠ rd → s'.reg r = s.reg r

/-- From `s` to `s'` a command retires having written `d` to register rd, `d2` to register rd2 and nothing else. -/
def State.RetiredWritingTwo (s s' : State) (rd : RegIdx) (d : DataReg) (rd2 : RegIdx) (d2 : DataReg) : Prop :=
  s.Retired s' ∧ s'.reg rd = d ∧ s'.reg rd2 = d2 ∧ ∀ r, r ≠ rd → r ≠ rd2 → s'.reg r = s.reg r

/-- From `s` to `s'` the fault entry of R223 for the executing command word, and nothing else. -/
def State.FaultEntry (s s' : State) (cause : Cause) (opnd : Bool) : Prop :=
  s' = { s with
    fault := true
    fcause := cause
    fopnd := opnd
    fcmd := s.executing.getD 0#32
    fidx := s.retired
    drop := s.drop || decide (s.queue ≠ [])
    queue := []
    executing := none }

/-- The offsets that R61 lists as reserved. -/
def ReservedOffset (off : Nat) : Prop :=
  (0x024 ≤ off ∧ off < 0x100) ∨
  (∃ i : RegIdx, 0x114 + 0x20 * i.toNat ≤ off ∧ off < 0x120 + 0x20 * i.toNat) ∨
  0x300 ≤ off

/-- The cause codes of R225. -/
def causeNumber : Cause → Nat
  | .none => 0
  | .illegal => 1
  | .uninit => 2
  | .tag => 3

/-- A row of R94: the op, the least and the greatest legal t, and which of rs2 and rd2 the op uses. -/
structure OpRow where
  op : Nat
  tMin : Nat
  tMax : Nat
  usesRs2 : Bool
  usesRd2 : Bool
deriving DecidableEq, Repr

/-- The table of R94. -/
def opTable : List OpRow :=
  [⟨0x01, 0, 7, false, false⟩, ⟨0x02, 0, 14, false, false⟩, ⟨0x10, 0, 7, false, false⟩, ⟨0x11, 0, 7, false, false⟩,
    ⟨0x12, 0, 7, false, false⟩, ⟨0x20, 0, 6, false, true⟩, ⟨0x21, 0, 6, true, false⟩, ⟨0x22, 0, 6, false, true⟩,
    ⟨0x23, 0, 6, true, false⟩, ⟨0x24, 0, 6, false, false⟩, ⟨0x30, 0, 6, false, false⟩, ⟨0x31, 0, 7, false, false⟩,
    ⟨0x32, 0, 7, true, false⟩, ⟨0x40, 0, 7, true, false⟩, ⟨0x41, 0, 7, true, false⟩, ⟨0x50, 8, 14, false, false⟩,
    ⟨0x51, 8, 14, false, false⟩, ⟨0x52, 0, 15, true, false⟩, ⟨0x53, 0, 15, true, false⟩]

/-- Bits hi ... lo of a word as a number, for a field of `width` bits from bit `lo` (00_scope.md section 5). -/
def bitsFrom (w : Word) (lo width : Nat) : Nat := w.toNat / 2 ^ lo % 2 ^ width

/-- A word meets items 2 to 5 of R95 for its op's row. -/
def RowRejects (row : OpRow) (w : Word) : Prop :=
  bitsFrom w 20 4 < row.tMin ∨ row.tMax < bitsFrom w 20 4 ∨
  (row.usesRs2 = false ∧ bitsFrom w 8 4 ≠ 0) ∨
  (row.usesRd2 = false ∧ bitsFrom w 4 4 ≠ 0) ∨
  bitsFrom w 0 4 ≠ 0 ∨
  (row.usesRd2 = true ∧ bitsFrom w 16 4 = bitsFrom w 4 4)

/-- The illegal words of R95. -/
def IllegalWord (w : Word) : Prop :=
  (∀ row ∈ opTable, row.op ≠ bitsFrom w 24 8) ∨ ∃ row ∈ opTable, row.op = bitsFrom w 24 8 ∧ RowRejects row w

/-- The sources of a command with the tag each must hold, rs1 first: the column "src tags" of R94. -/
def sourcesOf : Instr → List (RegIdx × Tag)
  | .wrap _ _ rs1 => [(rs1, 15#4)]
  | .unwrap t _ rs1 => [(rs1, t)]
  | .bcast _ _ rs1 => [(rs1, 15#4)]
  | .any t _ rs1 => [(rs1, t)]
  | .popc t _ rs1 => [(rs1, t)]
  | .split t _ _ rs1 => [(rs1, t)]
  | .merge t _ rs1 rs2 => [(rs1, t + 1#4), (rs2, t + 1#4)]
  | .halve t _ _ rs1 => [(rs1, t)]
  | .union t _ rs1 rs2 => [(rs1, t + 1#4), (rs2, t + 1#4)]
  | .squash t _ rs1 => [(rs1, t + 1#4)]
  | .sumw2 t _ rs1 => [(rs1, t)]
  | .sumw t _ rs1 => [(rs1, t)]
  | .add t _ rs1 rs2 => [(rs1, t), (rs2, t)]
  | .minhwd t _ rs1 rs2 => [(rs1, t), (rs2, t)]
  | .maxhwd t _ rs1 rs2 => [(rs1, t), (rs2, t)]
  | .tox t _ rs1 => [(rs1, t - 7#4)]
  | .fromx t _ rs1 => [(rs1, t)]
  | .cmpeq t _ rs1 rs2 => [(rs1, t), (rs2, t)]
  | .cmpltu t _ rs1 rs2 => [(rs1, t), (rs2, t)]

/-- The destinations of a command with the tag each gets: the column "dst tag" of R94. -/
def destinationsOf : Instr → List (RegIdx × Tag)
  | .wrap t rd _ => [(rd, t)]
  | .unwrap _ rd _ => [(rd, 15#4)]
  | .bcast t rd _ => [(rd, t)]
  | .any t rd _ => [(rd, t)]
  | .popc _ rd _ => [(rd, 15#4)]
  | .split t rd rd2 _ => [(rd, t + 1#4), (rd2, t + 1#4)]
  | .merge t rd _ _ => [(rd, t)]
  | .halve t rd rd2 _ => [(rd, t + 1#4), (rd2, t + 1#4)]
  | .union t rd _ _ => [(rd, t)]
  | .squash t rd _ => [(rd, t)]
  | .sumw2 t rd _ => [(rd, t + 1#4)]
  | .sumw _ rd _ => [(rd, 15#4)]
  | .add t rd _ _ => [(rd, t)]
  | .minhwd t rd _ _ => [(rd, t)]
  | .maxhwd t rd _ _ => [(rd, t)]
  | .tox t rd _ => [(rd, t)]
  | .fromx t rd _ => [(rd, t - 7#4)]
  | .cmpeq _ rd _ _ => [(rd, 15#4)]
  | .cmpltu _ rd _ _ => [(rd, 15#4)]

/-- The first operand check that fails, in the order of R226: for each source UNINIT, then TAG. `opnd` is FOPND of the
first source of the list. -/
def firstFailure (s : State) : Bool → List (RegIdx × Tag) → Option (Cause × Bool)
  | _, [] => none
  | opnd, (r, t) :: rest =>
    if (s.reg r).valid = false then some (.uninit, opnd)
    else if (s.reg r).tag ≠ t then some (.tag, opnd)
    else firstFailure s true rest

/-- A word has these values in the fields of format C, and 0 in bits 3:0 (R91). -/
def HasFields (w : Word) (op t rd rs1 rs2 rd2 : Nat) : Prop :=
  bitsFrom w 24 8 = op ∧ bitsFrom w 20 4 = t ∧ bitsFrom w 16 4 = rd ∧ bitsFrom w 12 4 = rs1 ∧ bitsFrom w 8 4 = rs2 ∧
  bitsFrom w 4 4 = rd2 ∧ bitsFrom w 0 4 = 0

/-- The "Exceptions" clause of a command's rule: ILLEGAL unless `legal`; then, for the sources in order, UNINIT and TAG
(R96, R226), each with the fault entry of R223. -/
def RaisesFaults (i : Instr) (s : State) (legal : Prop) (sources : List (RegIdx × Tag)) : Prop :=
  (¬legal → ∃ s', exec i s = .next s' ∧ s.FaultEntry s' .illegal false) ∧
  ∀ c o, legal → firstFailure s false sources = some (c, o) → ∃ s', exec i s = .next s' ∧ s.FaultEntry s' c o

/-- It is the engine's move: it can move, and it moves alone, or is the one picked, or the one picked cannot move (log
3). -/
def State.EngineToMove (s : State) : Prop :=
  s.canMove .engine = true ∧ (s.movers = [Agent.engine] ∨ s.pick = .engine ∨ s.canMove s.pick = false)

/-- The engine is about to execute the word `w`: it has started it, is not faulted, and it is the engine's move. -/
def State.AboutToExecute (s : State) (w : Word) : Prop :=
  s.executing = some w ∧ s.fault = false ∧ s.EngineToMove

/-- `s` after the arbitration of a step: a free choice is drawn where more than one agent can move (log 3). -/
def State.arbitrated (s : State) : State :=
  match s.movers with
  | [] => s
  | [_] => s
  | _ :: _ :: _ => s.draw

/-- Commands executed one after another, each by its meaning, until one does not answer a next state. -/
def runCommands : List Instr → State → Host.Outcome State Fault Refusal
  | [], s => .next s
  | i :: rest, s =>
    match exec i s with
    | .next s' => runCommands rest s'
    | .fault f => .fault f
    | .refused r => .refused r

/-- The host access at the port: the one that waits, or else the outside's next event. -/
def State.presented (s : State) : Option HostAccess :=
  match s.waiting with
  | some a => some a
  | none =>
    match s.inputs with
    | .access a :: _ => some a
    | .reset :: _ => none
    | [] => none

/-- It is the bus's move: it can move, and it moves alone, or is the one picked, or the one picked cannot move and the
engine cannot either (log 3). -/
def State.BusToMove (s : State) : Prop :=
  s.canMove .bus = true ∧
  (s.movers = [Agent.bus] ∨ s.pick = .bus ∨ (s.canMove s.pick = false ∧ s.canMove .engine = false))

/-- The state a presented access meets: `s` after the arbitration, with the access taken from `inputs` unless it had been
presented before and waits (R72). -/
def State.atAccess (s : State) : State :=
  { s.arbitrated with inputs := if s.waiting = none then s.inputs.tail else s.inputs }

/-- From `s` to `s'` the presented access `a` has exactly the effect and the response that `hostAccess` gives it, or it
waits with no effect (R68, R69). -/
def State.AccessTakes (s s' : State) (a : HostAccess) : Prop :=
  (∃ r t, s.atAccess.hostAccess a = .completes r t ∧ s' = { t with waiting := none, responses := r :: s.responses }) ∨
  (s.atAccess.hostAccess a = .waits ∧ s' = { s.atAccess with waiting := some a })

/-- Nothing is left to do: no agent can move, no access waits, and the outside has nothing more (R267). -/
def State.AtRest (s : State) : Prop :=
  s.movers = [] ∧ s.waiting = none ∧ s.inputs = [] ∧ s.idle = true

/-- The work ahead, which every move makes smaller: a bound on the steps until the machine is at rest (R267). -/
def State.work (s : State) : Nat :=
  6 * s.inputs.length + (if s.waiting.isSome then 3 else 0) + 2 * s.queue.length +
    (if s.executing.isSome then 1 else 0)

end Sys2Proof.Machine
end

