-- ==== Sys2Proof/Certificates/Slice0/Obligations.lean ====
section
/-! DEFINITION. The statements about the engine, in the order: encoding, sequencing and faults, the commands, the laws,
the mask tables, the host interface, whole-machine rules. -/

open Sys2Proof Sys2Proof.Machine

-- ==== Encoding ====

/-- Decoding the encoding of a legal command gives the command back, for every command and every field value. -/
def Obligations.DecodeOfEncode : Prop :=
  ∀ i : Instr, i.wellFormed = true → decode (encode i) = .ok i

/-- A word that decodes is legal and is the only word of its command: no bit of it is ignored (R91, R95). -/
def Obligations.EncodeOfDecode : Prop :=
  ∀ (w : Word) (i : Instr), decode w = .ok i → i.wellFormed = true ∧ encode i = w

/-- The decoder rejects exactly the words that R95 calls illegal, by the table of R94 written as data. -/
def Obligations.DecoderRejectsExactlyIllegalWords : Prop :=
  ∀ w : Word, (∃ e, decode w = .error e) ↔ IllegalWord w

/-- Words written out from R91 and R94 (30_encoding.md, worked encodings; 95_test_vectors.md section 2) decode to the
commands they stand for. -/
def Obligations.WorkedEncodingsDecode : Prop :=
  decode 0x01010000#32 = .ok (.wrap 0 1 0) ∧ decode 0x20021030#32 = .ok (.split 0 2 3 1) ∧
  decode 0x40145600#32 = .ok (.minhwd 1 4 5 6) ∧ decode 0x50A12000#32 = .ok (.tox 10 1 2) ∧
  decode 0x52F42300#32 = .ok (.cmpeq 15 4 2 3) ∧ decode 0x323B2300#32 = .ok (.add 3 11 2 3)

/-- HWD assembles to MINHWD with the same fields: the line `HWD.s rd, rs1, rs2`, for every suffix and every register, is
assembled to the command of `MINHWD.s rd, rs1, rs2`, whose word has op 0x40 and those fields; a disassembler prints
MINHWD (R99; the blanks of the line are log 15's). -/
def Obligations.HwdIsMinhwd : Prop :=
  ∀ (t : Tag) (rd rs1 rs2 : RegIdx),
    assemble (asmLine "HWD".toList t [rd, rs1, rs2]) = some (.minhwd t rd rs1 rs2) ∧
    assemble (asmLine "MINHWD".toList t [rd, rs1, rs2]) = some (.minhwd t rd rs1 rs2) ∧
    HasFields (encode (Instr.hwd t rd rs1 rs2)) 0x40 t.toNat rd.toNat rs1.toNat rs2.toNat 0 ∧
    disassemble (Instr.hwd t rd rs1 rs2) = asmLine "MINHWD".toList t [rd, rs1, rs2]

-- ==== Sequencing and faults ====

/-- When the word the engine has started decodes, the step is the meaning of the decoded command, on the state after the
step's arbitration. -/
def Obligations.StepRunsDecodedCommand : Prop :=
  ∀ (s : State) (w : Word) (i : Instr), s.AboutToExecute w → decode w = .ok i →
    step s = exec i s.arbitrated

/-- An illegal word raises ILLEGAL with FOPND 0 and has no other effect than the fault entry (R95, R224). -/
def Obligations.IllegalWordRaisesIllegal : Prop :=
  ∀ (s : State) (w : Word), s.AboutToExecute w → IllegalWord w →
    ∃ s', step s = .next s' ∧ s.arbitrated.FaultEntry s' .illegal false ∧ s'.fcause.code = 1#3 ∧
      s'.fopnd = false ∧ s'.fcmd = w ∧ (∀ r, s'.reg r = s.reg r) ∧ s'.retired = s.retired

/-- The head word leaves the queue when the engine starts it: where an unfaulted engine executes nothing, words are queued
and it is the engine's move, the step moves the head of the queue, and only it, into execution, whatever the host still
does or waits for, so that commands execute in the order of the queue (R33, R71). After reset, with nothing presented,
the engine starts nothing (R261): that such a step answers the same state is the model's choice (log 16), as is that
starting and executing are two steps (log 5). Whose move it is, is log 3's. -/
def Obligations.StepStartsHeadOfQueue : Prop :=
  (∀ (s : State) (w : Word) (rest : List Word), s.fault = false → s.executing = none → s.queue = w :: rest →
    s.EngineToMove → step s = .next { s.arbitrated with executing := some w, queue := rest }) ∧
  step State.reset = .next State.reset

/-- Every agent that can move is the next to move for some value of the free choice, everything else equal: the order
of the engine's progress and the host's accesses is open (R70, R269; log 3, the model's own arbitration). -/
def Obligations.EveryMoverMayMoveNext : Prop :=
  ∀ (s : State) (a : Agent), s.canMove a = true →
    ∃ p : Agent, step { s with pick := p } = ({ s with pick := p }.arbitrated).move a

/-- A command reports the first failing check of the order ILLEGAL, UNINIT rs1, TAG rs1, UNINIT rs2, TAG rs2, and checks
only the sources it uses; where none fails it retires (R96, R226, with the source tags of R94). -/
def Obligations.FirstFailingCheckIsReported : Prop :=
  ∀ (i : Instr) (s : State),
    (i.wellFormed = false → ∃ s', exec i s = .next s' ∧ s.FaultEntry s' .illegal false) ∧
    (∀ c o, i.wellFormed = true → firstFailure s false (sourcesOf i) = some (c, o) →
      ∃ s', exec i s = .next s' ∧ s.FaultEntry s' c o) ∧
    (i.wellFormed = true → firstFailure s false (sourcesOf i) = none →
      ∃ s', exec i s = .next s' ∧ s.Retired s')

/-- A command that retires changes nothing but its destinations, RETIRED and the executing word; each destination gets
the tag R94 lists and becomes valid (R25, R220). -/
def Obligations.RetiringWritesOnlyDestinations : Prop :=
  ∀ (i : Instr) (s s' : State), i.wellFormed = true → firstFailure s false (sourcesOf i) = none →
    exec i s = .next s' →
    s.Retired s' ∧
    (∀ r t, (r, t) ∈ destinationsOf i → (s'.reg r).valid = true ∧ (s'.reg r).tag = t) ∧
    (∀ r, (∀ t, (r, t) ∉ destinationsOf i) → s'.reg r = s.reg r)

/-- Faults are precise: a command after which FAULT is set from 0 has changed no data register, tag or valid bit and not
RETIRED, and has emptied the queue (R223, R227). -/
def Obligations.FaultsArePrecise : Prop :=
  ∀ (i : Instr) (s s' : State), s.fault = false → exec i s = .next s' → s'.fault = true →
    s'.regs = s.regs ∧ s'.retired = s.retired ∧ s'.fidx = s.retired ∧ s'.queue = [] ∧ s'.executing = none ∧
    s'.drop = (s.drop || decide (s.queue ≠ [])) ∧ s'.fie = s.fie

/-- No command executes while FAULT = 1, and no second fault is recorded before the first is cleared (R228, R229). -/
def Obligations.NothingExecutesWhileFaulted : Prop :=
  ∀ s s' : State, s.Inv → s.fault = true → step s = .next s' → s'.fault = true →
    s'.executing = none ∧ s'.queue = [] ∧ s'.retired = s.retired ∧ s'.fcmd = s.fcmd ∧ s'.fidx = s.fidx ∧
    s'.fcause = s.fcause ∧ s'.fopnd = s.fopnd

/-- FAULT goes from 1 to 0 only in a step that takes the reset input, or in one that presents a host write of CTRL with
CLRF (R230, R260). -/
def Obligations.OnlyClrfOrResetClearsFault : Prop :=
  ∀ s s' : State, s.fault = true → step s = .next s' → s'.fault = false →
    s.inputs = .reset :: s'.inputs ∨
    (∃ addr v, s.presented = some (.write 32 addr v) ∧ windowOffset addr = some 0x00C ∧ v.getLsbD 8 = true ∧
      s.AccessTakes s' (.write 32 addr v))

-- ==== The commands ====

/-- WRAP: the bits of a RAW scalar, unchanged, under tag t (R120). -/
def Obligations.WrapResult : Prop :=
  ∀ (s : State) (t : Tag) (rd rs1 : RegIdx),
    HasFields (encode (.wrap t rd rs1)) 0x01 t.toNat rd.toNat rs1.toNat 0 0 ∧
    RaisesFaults (.wrap t rd rs1) s (t.toNat ≤ 7) [(rs1, 15#4)] ∧
    (t.toNat ≤ 7 → s.Holds rs1 15#4 →
    ∃ s', exec (.wrap t rd rs1) s = .next s' ∧ s.RetiredWriting s' rd ⟨true, t, (s.reg rs1).data⟩)

/-- UNWRAP: the bits of a value of tag t, unchanged, as RAW (R121). -/
def Obligations.UnwrapResult : Prop :=
  ∀ (s : State) (t : Tag) (rd rs1 : RegIdx),
    HasFields (encode (.unwrap t rd rs1)) 0x02 t.toNat rd.toNat rs1.toNat 0 0 ∧
    RaisesFaults (.unwrap t rd rs1) s (t.toNat ≤ 14) [(rs1, t)] ∧
    (t.toNat ≤ 14 → s.Holds rs1 t →
    ∃ s', exec (.unwrap t rd rs1) s = .next s' ∧ s.RetiredWriting s' rd ⟨true, 15#4, (s.reg rs1).data⟩)

/-- BCAST: bit p of the result is the OR of the bits p - K*j of e over j < W/K with K*j <= p; in particular every lane is
e when e < 2^K (R122). -/
def Obligations.BcastResult : Prop :=
  ∀ (s : State) (t : Tag) (rd rs1 : RegIdx),
    HasFields (encode (.bcast t rd rs1)) 0x10 t.toNat rd.toNat rs1.toNat 0 0 ∧
    RaisesFaults (.bcast t rd rs1) s (t.toNat ≤ 7) [(rs1, 15#4)] ∧
    (t.toNat ≤ 7 → s.Holds rs1 15#4 →
    ∃ s' v, exec (.bcast t rd rs1) s = .next s' ∧ s.RetiredWriting s' rd ⟨true, t, v⟩ ∧
      (∀ p, p < 128 → (v.getLsbD p = true ↔
        ∃ j, j < 128 / 2 ^ t.toNat ∧ 2 ^ t.toNat * j ≤ p ∧
          (s.reg rs1).data.getLsbD (p - 2 ^ t.toNat * j) = true)) ∧
      ((s.reg rs1).data.toNat < 2 ^ 2 ^ t.toNat →
        ∀ j, j < 128 / 2 ^ t.toNat → lane (2 ^ t.toNat) v j = (s.reg rs1).data.toNat))

/-- ANY: lane i of the result is 1 if lane i of the source is not 0, else 0, for every lane (R123). -/
def Obligations.AnyResult : Prop :=
  ∀ (s : State) (t : Tag) (rd rs1 : RegIdx),
    HasFields (encode (.any t rd rs1)) 0x11 t.toNat rd.toNat rs1.toNat 0 0 ∧
    RaisesFaults (.any t rd rs1) s (t.toNat ≤ 7) [(rs1, t)] ∧
    (t.toNat ≤ 7 → s.Holds rs1 t →
    ∃ s' v, exec (.any t rd rs1) s = .next s' ∧ s.RetiredWriting s' rd ⟨true, t, v⟩ ∧
      ∀ j, j < 128 / 2 ^ t.toNat →
        lane (2 ^ t.toNat) v j = if lane (2 ^ t.toNat) (s.reg rs1).data j ≠ 0 then 1 else 0)

/-- POPC: the number of bits equal to 1 of all 128, as a RAW scalar (R124). -/
def Obligations.PopcResult : Prop :=
  ∀ (s : State) (t : Tag) (rd rs1 : RegIdx),
    HasFields (encode (.popc t rd rs1)) 0x12 t.toNat rd.toNat rs1.toNat 0 0 ∧
    RaisesFaults (.popc t rd rs1) s (t.toNat ≤ 7) [(rs1, t)] ∧
    (t.toNat ≤ 7 → s.Holds rs1 t →
    ∃ s' v, exec (.popc t rd rs1) s = .next s' ∧ s.RetiredWriting s' rd ⟨true, 15#4, v⟩ ∧
      v.toNat = (List.range 128).countP (fun p => (s.reg rs1).data.getLsbD p))

/-- SPLIT: rd gets the odd-numbered lanes and rd2 the even-numbered ones, each in the low half of a 2K-bit lane, both
tagged t+1 (R142). -/
def Obligations.SplitResult : Prop :=
  ∀ (s : State) (t : Tag) (rd rd2 rs1 : RegIdx),
    HasFields (encode (.split t rd rd2 rs1)) 0x20 t.toNat rd.toNat rs1.toNat 0 rd2.toNat ∧
    RaisesFaults (.split t rd rd2 rs1) s (t.toNat ≤ 6 ∧ rd ≠ rd2) [(rs1, t)] ∧
    (t.toNat ≤ 6 → rd ≠ rd2 → s.Holds rs1 t →
    ∃ s' hi lo, exec (.split t rd rd2 rs1) s = .next s' ∧
      s.RetiredWritingTwo s' rd ⟨true, t + 1#4, hi⟩ rd2 ⟨true, t + 1#4, lo⟩ ∧
      ∀ j, j < 128 / (2 * 2 ^ t.toNat) →
        lane (2 * 2 ^ t.toNat) hi j = lane (2 ^ t.toNat) (s.reg rs1).data (2 * j + 1) ∧
        lane (2 * 2 ^ t.toNat) lo j = lane (2 ^ t.toNat) (s.reg rs1).data (2 * j))

/-- MERGE: the low halves of the 2K-bit lanes of rs1 become the odd lanes and those of rs2 the even lanes (R143). -/
def Obligations.MergeResult : Prop :=
  ∀ (s : State) (t : Tag) (rd rs1 rs2 : RegIdx),
    HasFields (encode (.merge t rd rs1 rs2)) 0x21 t.toNat rd.toNat rs1.toNat rs2.toNat 0 ∧
    RaisesFaults (.merge t rd rs1 rs2) s (t.toNat ≤ 6) [(rs1, t + 1#4), (rs2, t + 1#4)] ∧
    (t.toNat ≤ 6 → s.Holds rs1 (t + 1#4) → s.Holds rs2 (t + 1#4) →
    ∃ s' v, exec (.merge t rd rs1 rs2) s = .next s' ∧ s.RetiredWriting s' rd ⟨true, t, v⟩ ∧
      ∀ j, j < 128 / (2 * 2 ^ t.toNat) →
        lane (2 ^ t.toNat) v (2 * j + 1) = lane (2 * 2 ^ t.toNat) (s.reg rs1).data j % 2 ^ 2 ^ t.toNat ∧
        lane (2 ^ t.toNat) v (2 * j) = lane (2 * 2 ^ t.toNat) (s.reg rs2).data j % 2 ^ 2 ^ t.toNat)

/-- HALVE: rd gets the lanes of the upper 64 bits and rd2 those of the lower 64 bits, each lane in the low half of a
2K-bit lane, in order, both tagged t+1 (R140, R144). -/
def Obligations.HalveResult : Prop :=
  ∀ (s : State) (t : Tag) (rd rd2 rs1 : RegIdx),
    HasFields (encode (.halve t rd rd2 rs1)) 0x22 t.toNat rd.toNat rs1.toNat 0 rd2.toNat ∧
    RaisesFaults (.halve t rd rd2 rs1) s (t.toNat ≤ 6 ∧ rd ≠ rd2) [(rs1, t)] ∧
    (t.toNat ≤ 6 → rd ≠ rd2 → s.Holds rs1 t →
    ∃ s' left right, exec (.halve t rd rd2 rs1) s = .next s' ∧
      s.RetiredWritingTwo s' rd ⟨true, t + 1#4, left⟩ rd2 ⟨true, t + 1#4, right⟩ ∧
      ∀ j, j < 64 / 2 ^ t.toNat →
        lane (2 * 2 ^ t.toNat) left j = lane (2 ^ t.toNat) (s.reg rs1).data (64 / 2 ^ t.toNat + j) ∧
        lane (2 * 2 ^ t.toNat) right j = lane (2 ^ t.toNat) (s.reg rs1).data j)

/-- UNION: the low halves of the 2K-bit lanes of rs1, in order, fill the upper 64 bits and those of rs2 the lower 64 bits
(R141, R145). -/
def Obligations.UnionResult : Prop :=
  ∀ (s : State) (t : Tag) (rd rs1 rs2 : RegIdx),
    HasFields (encode (.union t rd rs1 rs2)) 0x23 t.toNat rd.toNat rs1.toNat rs2.toNat 0 ∧
    RaisesFaults (.union t rd rs1 rs2) s (t.toNat ≤ 6) [(rs1, t + 1#4), (rs2, t + 1#4)] ∧
    (t.toNat ≤ 6 → s.Holds rs1 (t + 1#4) → s.Holds rs2 (t + 1#4) →
    ∃ s' v, exec (.union t rd rs1 rs2) s = .next s' ∧ s.RetiredWriting s' rd ⟨true, t, v⟩ ∧
      ∀ j, j < 64 / 2 ^ t.toNat →
        lane (2 ^ t.toNat) v (64 / 2 ^ t.toNat + j) =
          lane (2 * 2 ^ t.toNat) (s.reg rs1).data j % 2 ^ 2 ^ t.toNat ∧
        lane (2 ^ t.toNat) v j = lane (2 * 2 ^ t.toNat) (s.reg rs2).data j % 2 ^ 2 ^ t.toNat)

/-- SQUASH: the low halves of the 2K-bit lanes, in order, in the lower 64 bits; the upper 64 bits are 0 (R146). -/
def Obligations.SquashResult : Prop :=
  ∀ (s : State) (t : Tag) (rd rs1 : RegIdx),
    HasFields (encode (.squash t rd rs1)) 0x24 t.toNat rd.toNat rs1.toNat 0 0 ∧
    RaisesFaults (.squash t rd rs1) s (t.toNat ≤ 6) [(rs1, t + 1#4)] ∧
    (t.toNat ≤ 6 → s.Holds rs1 (t + 1#4) →
    ∃ s' v, exec (.squash t rd rs1) s = .next s' ∧ s.RetiredWriting s' rd ⟨true, t, v⟩ ∧ v.toNat < 2 ^ 64 ∧
      ∀ j, j < 64 / 2 ^ t.toNat →
        lane (2 ^ t.toNat) v j = lane (2 * 2 ^ t.toNat) (s.reg rs1).data j % 2 ^ 2 ^ t.toNat)

/-- SUMW2: each 2K-bit lane is the exact sum of two adjacent K-bit lanes, tagged t+1; no carry leaves a lane (R160). -/
def Obligations.Sumw2Result : Prop :=
  ∀ (s : State) (t : Tag) (rd rs1 : RegIdx),
    HasFields (encode (.sumw2 t rd rs1)) 0x30 t.toNat rd.toNat rs1.toNat 0 0 ∧
    RaisesFaults (.sumw2 t rd rs1) s (t.toNat ≤ 6) [(rs1, t)] ∧
    (t.toNat ≤ 6 → s.Holds rs1 t →
    ∃ s' v, exec (.sumw2 t rd rs1) s = .next s' ∧ s.RetiredWriting s' rd ⟨true, t + 1#4, v⟩ ∧
      ∀ j, j < 128 / (2 * 2 ^ t.toNat) →
        lane (2 * 2 ^ t.toNat) v j =
          lane (2 ^ t.toNat) (s.reg rs1).data (2 * j) + lane (2 ^ t.toNat) (s.reg rs1).data (2 * j + 1))

/-- SUMW: the exact sum of all lanes, which never overflows, as a RAW scalar (R161). -/
def Obligations.SumwResult : Prop :=
  ∀ (s : State) (t : Tag) (rd rs1 : RegIdx),
    HasFields (encode (.sumw t rd rs1)) 0x31 t.toNat rd.toNat rs1.toNat 0 0 ∧
    RaisesFaults (.sumw t rd rs1) s (t.toNat ≤ 7) [(rs1, t)] ∧
    (t.toNat ≤ 7 → s.Holds rs1 t →
    ∃ s' v, exec (.sumw t rd rs1) s = .next s' ∧ s.RetiredWriting s' rd ⟨true, 15#4, v⟩ ∧
      v.toNat = ((List.range (128 / 2 ^ t.toNat)).map (lane (2 ^ t.toNat) (s.reg rs1).data)).sum)

/-- ADD: one 128-bit addition modulo 2^128, whatever the lane width; carries cross lanes (R162). -/
def Obligations.AddResult : Prop :=
  ∀ (s : State) (t : Tag) (rd rs1 rs2 : RegIdx),
    HasFields (encode (.add t rd rs1 rs2)) 0x32 t.toNat rd.toNat rs1.toNat rs2.toNat 0 ∧
    RaisesFaults (.add t rd rs1 rs2) s (t.toNat ≤ 7) [(rs1, t), (rs2, t)] ∧
    (t.toNat ≤ 7 → s.Holds rs1 t → s.Holds rs2 t →
    ∃ s' v, exec (.add t rd rs1 rs2) s = .next s' ∧ s.RetiredWriting s' rd ⟨true, t, v⟩ ∧
      v.toNat = ((s.reg rs1).data.toNat + (s.reg rs2).data.toNat) % 2 ^ 128)

/-- MINHWD: the exact absolute difference in every lane, valid weights or not (R180, R181). -/
def Obligations.MinhwdResult : Prop :=
  ∀ (s : State) (t : Tag) (rd rs1 rs2 : RegIdx),
    HasFields (encode (.minhwd t rd rs1 rs2)) 0x40 t.toNat rd.toNat rs1.toNat rs2.toNat 0 ∧
    RaisesFaults (.minhwd t rd rs1 rs2) s (t.toNat ≤ 7) [(rs1, t), (rs2, t)] ∧
    (t.toNat ≤ 7 → s.Holds rs1 t → s.Holds rs2 t →
    ∃ s' v, exec (.minhwd t rd rs1 rs2) s = .next s' ∧ s.RetiredWriting s' rd ⟨true, t, v⟩ ∧
      ∀ j, j < 128 / 2 ^ t.toNat →
        (lane (2 ^ t.toNat) v j : Int) =
          |(lane (2 ^ t.toNat) (s.reg rs1).data j : Int) - lane (2 ^ t.toNat) (s.reg rs2).data j|)

/-- MAXHWD: 2 for a lane pair (1, 1) at K = 2, else the exact absolute difference (R182). -/
def Obligations.MaxhwdResult : Prop :=
  ∀ (s : State) (t : Tag) (rd rs1 rs2 : RegIdx),
    HasFields (encode (.maxhwd t rd rs1 rs2)) 0x41 t.toNat rd.toNat rs1.toNat rs2.toNat 0 ∧
    RaisesFaults (.maxhwd t rd rs1 rs2) s (t.toNat ≤ 7) [(rs1, t), (rs2, t)] ∧
    (t.toNat ≤ 7 → s.Holds rs1 t → s.Holds rs2 t →
    ∃ s' v, exec (.maxhwd t rd rs1 rs2) s = .next s' ∧ s.RetiredWriting s' rd ⟨true, t, v⟩ ∧
      ∀ j, j < 128 / 2 ^ t.toNat →
        (lane (2 ^ t.toNat) v j : Int) =
          if t = 1#4 ∧ lane (2 ^ t.toNat) (s.reg rs1).data j = 1 ∧ lane (2 ^ t.toNat) (s.reg rs2).data j = 1 then 2
          else |(lane (2 ^ t.toNat) (s.reg rs1).data j : Int) - lane (2 ^ t.toNat) (s.reg rs2).data j|)

/-- TOX: the bits of a Bits{2K} value, unchanged and unchecked, under the overflow-tracking tag t (R200). -/
def Obligations.ToxResult : Prop :=
  ∀ (s : State) (t : Tag) (rd rs1 : RegIdx),
    HasFields (encode (.tox t rd rs1)) 0x50 t.toNat rd.toNat rs1.toNat 0 0 ∧
    RaisesFaults (.tox t rd rs1) s (8 ≤ t.toNat ∧ t.toNat ≤ 14) [(rs1, BitVec.ofNat 4 (t.toNat - 7))] ∧
    (8 ≤ t.toNat → t.toNat ≤ 14 →
    s.Holds rs1 (BitVec.ofNat 4 (t.toNat - 7)) →
    ∃ s', exec (.tox t rd rs1) s = .next s' ∧ s.RetiredWriting s' rd ⟨true, t, (s.reg rs1).data⟩)

/-- FROMX: the bits of an overflow-tracking value, unchanged, under tag t-7 (R201). -/
def Obligations.FromxResult : Prop :=
  ∀ (s : State) (t : Tag) (rd rs1 : RegIdx),
    HasFields (encode (.fromx t rd rs1)) 0x51 t.toNat rd.toNat rs1.toNat 0 0 ∧
    RaisesFaults (.fromx t rd rs1) s (8 ≤ t.toNat ∧ t.toNat ≤ 14) [(rs1, t)] ∧
    (8 ≤ t.toNat → t.toNat ≤ 14 → s.Holds rs1 t →
    ∃ s', exec (.fromx t rd rs1) s = .next s' ∧
      s.RetiredWriting s' rd ⟨true, BitVec.ofNat 4 (t.toNat - 7), (s.reg rs1).data⟩)

/-- CMPEQ: RAW 1 if the two scalars are equal, else RAW 0, for every tag (R202). -/
def Obligations.CmpeqResult : Prop :=
  ∀ (s : State) (t : Tag) (rd rs1 rs2 : RegIdx),
    HasFields (encode (.cmpeq t rd rs1 rs2)) 0x52 t.toNat rd.toNat rs1.toNat rs2.toNat 0 ∧
    RaisesFaults (.cmpeq t rd rs1 rs2) s (True) [(rs1, t), (rs2, t)] ∧
    (s.Holds rs1 t → s.Holds rs2 t →
    ∃ s', exec (.cmpeq t rd rs1 rs2) s = .next s' ∧
      s.RetiredWriting s' rd ⟨true, 15#4, if (s.reg rs1).data = (s.reg rs2).data then 1 else 0⟩)

/-- CMPLTU: RAW 1 if the first scalar is below the second as an unsigned number, else RAW 0, for every tag (R203). -/
def Obligations.CmpltuResult : Prop :=
  ∀ (s : State) (t : Tag) (rd rs1 rs2 : RegIdx),
    HasFields (encode (.cmpltu t rd rs1 rs2)) 0x53 t.toNat rd.toNat rs1.toNat rs2.toNat 0 ∧
    RaisesFaults (.cmpltu t rd rs1 rs2) s (True) [(rs1, t), (rs2, t)] ∧
    (s.Holds rs1 t → s.Holds rs2 t →
    ∃ s', exec (.cmpltu t rd rs1 rs2) s = .next s' ∧
      s.RetiredWriting s' rd ⟨true, 15#4, if (s.reg rs1).data.toNat < (s.reg rs2).data.toNat then 1 else 0⟩)

-- ==== Laws of the commands ====

/-- Law L1: MERGE after SPLIT gives the original value and tag back, for every width and every choice of registers. -/
def Obligations.MergeUndoesSplit : Prop :=
  ∀ (s : State) (t : Tag) (rd rd2 rs1 rx : RegIdx), t.toNat ≤ 6 → rd ≠ rd2 → s.Holds rs1 t →
    ∃ s', runCommands [.split t rd rd2 rs1, .merge t rx rd rd2] s = .next s' ∧
      s'.reg rx = ⟨true, t, (s.reg rs1).data⟩ ∧ s'.retired = s.retired + 2

/-- Law L2: UNION after HALVE gives the original value and tag back, for every width and every choice of registers. -/
def Obligations.UnionUndoesHalve : Prop :=
  ∀ (s : State) (t : Tag) (rd rd2 rs1 rx : RegIdx), t.toNat ≤ 6 → rd ≠ rd2 → s.Holds rs1 t →
    ∃ s', runCommands [.halve t rd rd2 rs1, .union t rx rd rd2] s = .next s' ∧
      s'.reg rx = ⟨true, t, (s.reg rs1).data⟩ ∧ s'.retired = s.retired + 2

/-- Law L3: for e < 2^K the two results of SPLIT of the broadcast of e are equal. -/
def Obligations.SplitOfBroadcastIsEqualPair : Prop :=
  ∀ (s : State) (t : Tag) (rd rd2 rs1 : RegIdx), t.toNat ≤ 6 → rd ≠ rd2 → s.Holds rs1 15#4 →
    (s.reg rs1).data.toNat < 2 ^ 2 ^ t.toNat →
    ∃ s', runCommands [.bcast t rd rs1, .split t rd rd2 rd] s = .next s' ∧ s'.reg rd = s'.reg rd2 ∧
      ∀ j, j < 128 / (2 * 2 ^ t.toNat) → lane (2 * 2 ^ t.toNat) (s'.reg rd).data j = (s.reg rs1).data.toNat

/-- Seven SUMW2 from 1-bit lanes give the population count of the original value, as a Bits128 value (42_sums.md, the
source's correctness invariant). -/
def Obligations.SevenPairwiseSumsCountOnes : Prop :=
  ∀ (s : State) (r : RegIdx), s.Holds r 0#4 →
    ∃ s' v, runCommands [.sumw2 0 r r, .sumw2 1 r r, .sumw2 2 r r, .sumw2 3 r r, .sumw2 4 r r, .sumw2 5 r r,
        .sumw2 6 r r] s = .next s' ∧ s'.reg r = ⟨true, 7#4, v⟩ ∧ s'.retired = s.retired + 7 ∧
      v.toNat = (List.range 128).countP (fun p => (s.reg r).data.getLsbD p)

/-- SUMW from width K gives what one SUMW2 and then SUMW from width 2K give: the chaining of R161. -/
def Obligations.SumwIsPairwiseSumsChained : Prop :=
  ∀ (s : State) (t : Tag) (r : RegIdx), t.toNat ≤ 6 → s.Holds r t →
    ∃ s₁ s₂, exec (.sumw t r r) s = .next s₁ ∧ runCommands [.sumw2 t r r, .sumw (t + 1#4) r r] s = .next s₂ ∧
      s₁.reg r = s₂.reg r

/-- MINHWD is symmetric, is 0 on equal operands, and is the exclusive or at K = 1; MAXHWD is symmetric and equals
MINHWD at every K other than 2 (R181, R182, corner cases). -/
def Obligations.DistanceCornerCases : Prop :=
  ∀ (s : State) (t : Tag) (rd rs1 rs2 : RegIdx), t.toNat ≤ 7 → s.Holds rs1 t → s.Holds rs2 t →
    ∃ s₁ s₂, exec (.minhwd t rd rs1 rs2) s = .next s₁ ∧ exec (.maxhwd t rd rs1 rs2) s = .next s₂ ∧
      exec (.minhwd t rd rs2 rs1) s = .next s₁ ∧ exec (.maxhwd t rd rs2 rs1) s = .next s₂ ∧
      (t ≠ 1#4 → s₁ = s₂) ∧ ((s.reg rs1).data = (s.reg rs2).data → (s₁.reg rd).data = 0) ∧
      (t = 0#4 → (s₁.reg rd).data = (s.reg rs1).data ^^^ (s.reg rs2).data)

-- ==== Lanes and mask tables ====

/-- A lane is the bit field of R5 and a number below 2^K (R6), for every lane width of R4. -/
def Obligations.LaneIsBitField : Prop :=
  ∀ (k i : Nat) (v : Scalar), k ≤ 7 → i < 128 / 2 ^ k →
    lane (2 ^ k) v i = (v.extractLsb' (2 ^ k * i) (2 ^ k)).toNat ∧ lane (2 ^ k) v i < 2 ^ 2 ^ k

/-- The mask tables by the formula of R27, RIGHT_MASKS the complement of LEFT_MASKS, and their values as R28 lists
them. -/
def Obligations.MaskTables : Prop :=
  (∀ l p : Nat, l ≤ 6 → p < 128 → ((leftMask l).getLsbD p = true ↔ 2 ^ (6 - l) ≤ p % 2 ^ (7 - l))) ∧
  (∀ l : Nat, l ≤ 6 → rightMask l = ~~~leftMask l ∧ leftMask l ||| rightMask l = BitVec.allOnes 128 ∧
    leftMask l &&& rightMask l = 0) ∧
  leftMask 0 = 0xFFFFFFFFFFFFFFFF0000000000000000#128 ∧ leftMask 1 = 0xFFFFFFFF00000000FFFFFFFF00000000#128 ∧
  leftMask 2 = 0xFFFF0000FFFF0000FFFF0000FFFF0000#128 ∧ leftMask 3 = 0xFF00FF00FF00FF00FF00FF00FF00FF00#128 ∧
  leftMask 4 = 0xF0F0F0F0F0F0F0F0F0F0F0F0F0F0F0F0#128 ∧ leftMask 5 = 0xCCCCCCCCCCCCCCCCCCCCCCCCCCCCCCCC#128 ∧
  leftMask 6 = 0xAAAAAAAAAAAAAAAAAAAAAAAAAAAAAAAA#128 ∧
  rightMask 0 = 0x0000000000000000FFFFFFFFFFFFFFFF#128 ∧ rightMask 1 = 0x00000000FFFFFFFF00000000FFFFFFFF#128 ∧
  rightMask 2 = 0x0000FFFF0000FFFF0000FFFF0000FFFF#128 ∧ rightMask 3 = 0x00FF00FF00FF00FF00FF00FF00FF00FF#128 ∧
  rightMask 4 = 0x0F0F0F0F0F0F0F0F0F0F0F0F0F0F0F0F#128 ∧ rightMask 5 = 0x33333333333333333333333333333333#128 ∧
  rightMask 6 = 0x55555555555555555555555555555555#128

/-- RIGHT_MASKS at the level of K keeps the even-numbered lanes of any value and clears the others; LEFT_MASKS keeps the
odd-numbered ones (R29). -/
def Obligations.MasksSelectLanes : Prop :=
  ∀ (t : Tag) (v : Scalar) (i : Nat), t.toNat ≤ 6 → i < 128 / 2 ^ t.toNat →
    lane (2 ^ t.toNat) (v &&& rightMask (6 - t.toNat)) i =
      (if i % 2 = 0 then lane (2 ^ t.toNat) v i else 0) ∧
    lane (2 ^ t.toNat) (v &&& leftMask (6 - t.toNat)) i =
      (if i % 2 = 1 then lane (2 ^ t.toNat) v i else 0)

-- ==== Host interface ====

/-- The state right after reset: every value R45 lists, ID and CFG among them, and the engine idle with `irq` = 0. The mask
tables are no state (R30): MaskTables gives their constants. -/
def Obligations.ResetValues : Prop :=
  (∀ r : RegIdx, State.reset.reg r = ⟨false, 15#4, 0#128⟩) ∧ State.reset.queue = [] ∧ State.reset.executing = none ∧
  State.reset.retired = 0 ∧ State.reset.statusWord = 0 ∧ State.reset.fault = false ∧ State.reset.drop = false ∧
  State.reset.fcause = .none ∧ State.reset.fopnd = false ∧ State.reset.fie = false ∧ State.reset.fcmd = 0 ∧
  State.reset.fidx = 0 ∧ State.reset.irq = false ∧ State.reset.waiting = none ∧ State.reset.idle = true ∧
  State.reset.hostRead 32 0x000 = .completes (.readData 0x53570001#32) State.reset ∧
  State.reset.hostRead 32 0x004 =
    .completes (.readData (BitVec.ofNat 32 (65536 * Config.qdepth + 0x1010))) State.reset

/-- The reset input puts every piece of the engine's state into its reset value in one step, at any time, and a waiting
access ends with an error response (R260). The lists `inputs` and `responses`, `pick` and `draws` are the model's own and
are no state of the engine (log 6). -/
def Obligations.ResetInputResets : Prop :=
  ∀ (s : State) (rest : List Input), s.inputs = .reset :: rest → s.movers = [Agent.reset] ∨ s.pick = .reset →
    ∃ s', step s = .next s' ∧
      s' = { State.reset with
        inputs := rest
        responses := (if s.waiting = none then [] else [.abortedByReset]) ++ s.responses
        pick := s'.pick
        draws := s'.draws }

/-- The map of R61: which register each offset reaches for a 32-bit access, and that every other access reaches none. -/
def Obligations.WindowMap : Prop :=
  selectPort 32 0x000 = some .id ∧ selectPort 32 0x004 = some .cfg ∧ selectPort 32 0x008 = some .status ∧
  selectPort 32 0x00C = some .ctrl ∧ selectPort 32 0x010 = some .cmd ∧ selectPort 32 0x014 = some .fcmd ∧
  selectPort 32 0x018 = some .fidx ∧ selectPort 32 0x01C = some .retired ∧ selectPort 32 0x020 = some .sync ∧
  (∀ (i : RegIdx) (j : BitVec 2), selectPort 32 (0x100 + 0x20 * i.toNat + 4 * j.toNat) = some (.data i j)) ∧
  (∀ i : RegIdx, selectPort 32 (0x100 + 0x20 * i.toNat + 0x10) = some (.tag i)) ∧
  (∀ bits off : Nat, bits ≠ 32 ∨ off % 4 ≠ 0 → selectPort bits off = none) ∧
  (∀ off : Nat, 0x024 ≤ off → off < 0x100 → selectPort 32 off = none) ∧
  (∀ (i : RegIdx) (off : Nat), 0x114 + 0x20 * i.toNat ≤ off → off < 0x120 + 0x20 * i.toNat →
    selectPort 32 off = none) ∧
  (∀ off : Nat, 0x300 ≤ off → selectPort 32 off = none)

/-- A refused access gets an error response with data 0 for a read and changes nothing (R63): a width other than 32 bits,
a misaligned or reserved offset, a write of an RO register, a read of CMD. That it is refused at once, also while the
engine is busy, is the model's reading (log 7). -/
def Obligations.RefusedAccesses : Prop :=
  ∀ (s : State) (bits off : Nat) (v : Word),
    (bits ≠ 32 ∨ off % 4 ≠ 0 ∨ ReservedOffset off →
      s.hostRead bits off = .completes (.refusedRead 0) s ∧ s.hostWrite bits off v = .completes .refusedWrite s) ∧
    (off = 0x010 → s.hostRead bits off = .completes (.refusedRead 0) s) ∧
    (off ∈ [0x000, 0x004, 0x008, 0x014, 0x018, 0x01C, 0x020] →
      s.hostWrite bits off v = .completes .refusedWrite s)

/-- No host read changes engine state (R78). -/
def Obligations.HostReadsChangeNothing : Prop :=
  ∀ (s s' : State) (bits off : Nat) (r : Response), s.hostRead bits off = .completes r s' → s' = s

/-- Accesses to DATA, TAG and SYNC wait exactly while the engine is not idle, which a faulted engine always is; reads of
the registers below SYNC and writes of CTRL never wait (R69). -/
def Obligations.AccessesWaitForIdle : Prop :=
  ∀ (s : State) (i : RegIdx) (j : BitVec 2) (v : Word),
    (s.hostRead 32 (0x100 + 0x20 * i.toNat + 4 * j.toNat) = .waits ↔ s.idle = false) ∧
    (s.hostWrite 32 (0x100 + 0x20 * i.toNat + 4 * j.toNat) v = .waits ↔ s.idle = false) ∧
    (s.hostRead 32 (0x110 + 0x20 * i.toNat) = .waits ↔ s.idle = false) ∧
    (s.hostWrite 32 (0x110 + 0x20 * i.toNat) v = .waits ↔ s.idle = false) ∧
    (s.hostRead 32 0x020 = .waits ↔ s.idle = false) ∧
    (∀ off, off < 0x020 → s.hostRead 32 off ≠ .waits) ∧ s.hostWrite 32 0x00C v ≠ .waits ∧
    (s.Inv → s.fault = true → s.idle = true)

/-- DATA[i] word j holds bits 32j+31 ... 32j of ri, byte b of it bits 8b+7 ... 8b of the word at offset `off + b`. A read
returns them whatever valid is, a write sets them and no other bit, tag or valid bit; both wait for idle (R64, R66). -/
def Obligations.DataWordsReadAndWrite : Prop :=
  ∀ (s : State) (i : RegIdx) (j b : BitVec 2) (v : Word),
    s.windowByte (0x100 + 0x20 * i.toNat + 4 * j.toNat + b.toNat) =
      some ((s.reg i).data.extractLsb' (32 * j.toNat + 8 * b.toNat) 8) ∧
    (s.idle = false → s.hostRead 32 (0x100 + 0x20 * i.toNat + 4 * j.toNat) = .waits ∧
      s.hostWrite 32 (0x100 + 0x20 * i.toNat + 4 * j.toNat) v = .waits) ∧
    (s.idle = true → s.hostRead 32 (0x100 + 0x20 * i.toNat + 4 * j.toNat) =
        .completes (.readData ((s.reg i).data.extractLsb' (32 * j.toNat) 32)) s ∧
      ∃ s' x, s.hostWrite 32 (0x100 + 0x20 * i.toNat + 4 * j.toNat) v = .completes .writeDone s' ∧
        s' = { s with regs := s'.regs } ∧ s'.reg i = { s.reg i with data := x } ∧
        (∀ r, r ≠ i → s'.reg r = s.reg r) ∧
        ∀ p, p < 128 → x.getLsbD p =
          if 32 * j.toNat ≤ p ∧ p < 32 * j.toNat + 32 then v.getLsbD (p - 32 * j.toNat)
          else (s.reg i).data.getLsbD p)

/-- A TAG write sets the tag from bits 3:0 and valid from bit 4 and changes nothing else; a TAG read returns valid in bit 4
and the tag in bits 3:0; both wait for idle (R67). -/
def Obligations.TagWordReadsAndWrites : Prop :=
  ∀ (s : State) (i : RegIdx) (v : Word),
    (s.idle = false → s.hostRead 32 (0x110 + 0x20 * i.toNat) = .waits ∧
      s.hostWrite 32 (0x110 + 0x20 * i.toNat) v = .waits) ∧
    (s.idle = true →
      (∃ w, s.hostRead 32 (0x110 + 0x20 * i.toNat) = .completes (.readData w) s ∧
        w.toNat = (if (s.reg i).valid then 16 else 0) + (s.reg i).tag.toNat) ∧
      ∃ s', s.hostWrite 32 (0x110 + 0x20 * i.toNat) v = .completes .writeDone s' ∧ s' = { s with regs := s'.regs } ∧
        (s'.reg i).tag.toNat = v.toNat % 16 ∧ (s'.reg i).valid = v.getLsbD 4 ∧ (s'.reg i).data = (s.reg i).data ∧
        ∀ r, r ≠ i → s'.reg r = s.reg r)

/-- A CMD write: discarded with DROP set while FAULT = 1; waiting while the queue holds QDEPTH words; else appended at the
end of the queue, whatever the word (R68). -/
def Obligations.CmdWrite : Prop :=
  ∀ (s : State) (w : Word), s.Inv →
    (s.fault = true → s.hostWrite 32 0x010 w = .completes .writeDone { s with drop := true }) ∧
    (s.fault = false → s.queue.length = Config.qdepth → s.hostWrite 32 0x010 w = .waits) ∧
    (s.fault = false → s.queue.length ≠ Config.qdepth →
      s.hostWrite 32 0x010 w = .completes .writeDone { s with queue := s.queue ++ [w] })

/-- A CTRL write takes FIE from bit 0, and with bit 8 = 1 clears FAULT, DROP, FCAUSE and FOPND in the same step; FCMD and
FIDX keep their values; a CLRF write while FAULT = 0 changes nothing but FIE; after a CLRF that clears a fault nothing is
left to replay and the next CMD write is accepted (R230). -/
def Obligations.CtrlWriteAndClrf : Prop :=
  ∀ (s : State) (v w : Word), s.Inv →
    (v.getLsbD 8 = true → s.hostWrite 32 0x00C v = .completes .writeDone
      { s with fie := v.getLsbD 0, fault := false, drop := false, fcause := .none, fopnd := false }) ∧
    (v.getLsbD 8 = false ∨ s.fault = false →
      s.hostWrite 32 0x00C v = .completes .writeDone { s with fie := v.getLsbD 0 }) ∧
    (v.getLsbD 8 = true → s.fault = true → ∃ s', s.hostWrite 32 0x00C v = .completes .writeDone s' ∧
      s'.queue = [] ∧ s'.executing = none ∧
      s'.hostWrite 32 0x010 w = .completes .writeDone { s' with queue := [w] })

/-- The words that the registers other than DATA and TAG read as, field by field (R35 to R42; R38 with QDEPTH). -/
def Obligations.ControlRegistersRead : Prop :=
  ∀ s : State,
    s.hostRead 32 0x000 = .completes (.readData 0x53570001#32) s ∧
    s.hostRead 32 0x004 = .completes (.readData (BitVec.ofNat 32 (65536 * Config.qdepth + 0x1010))) s ∧
    s.hostRead 32 0x008 = .completes (.readData s.statusWord) s ∧
    s.hostRead 32 0x00C = .completes (.readData (if s.fie then 1 else 0)) s ∧
    s.hostRead 32 0x014 = .completes (.readData s.fcmd) s ∧ s.hostRead 32 0x018 = .completes (.readData s.fidx) s ∧
    s.hostRead 32 0x01C = .completes (.readData s.retired) s ∧
    (s.idle = true → s.hostRead 32 0x020 = .completes (.readData s.statusWord) s)

/-- The fields of the STATUS word (R35), the codes of FCAUSE (R225), and `irq` = FAULT & FIE (R44, R232). -/
def Obligations.StatusWordFields : Prop :=
  ∀ s : State, s.Inv →
    s.statusWord.toNat =
      (if s.queue = [] ∧ s.executing = none then 0 else 1) + (if s.fault then 2 else 0) + (if s.drop then 4 else 0) +
      16 * causeNumber s.fcause +
      (if s.fopnd then 128 else 0) + 256 * s.queue.length ∧
    s.irq = (s.statusWord.getLsbD 1 && s.fie)

/-- Host accesses take effect in the host's order (R72). Where it is the bus's move, the presented access (the one that
waits, or else the next of `inputs`) has exactly the effect and the response of `hostAccess`, or waits. Any step does
this, or takes the reset input, or leaves accesses and responses as they are. At an offset of the window `hostAccess` is
`hostRead` or `hostWrite`; outside, it changes nothing (log 2). The lists are the model's (log 4). -/
def Obligations.HostAccessesInOrder : Prop :=
  (∀ (s : State) (a : HostAccess), s.BusToMove → s.presented = some a →
    ∃ s', step s = .next s' ∧ s.AccessTakes s' a) ∧
  (∀ s s' : State, step s = .next s' →
    (s'.waiting = s.waiting ∧ s'.inputs = s.inputs ∧ s'.responses = s.responses) ∨
    (∃ a, s.presented = some a ∧ s.AccessTakes s' a) ∨
    (s.inputs = .reset :: s'.inputs ∧ s'.waiting = none ∧
      s'.responses = (if s.waiting = none then [] else [.abortedByReset]) ++ s.responses)) ∧
  (∀ (s : State) (bits off : Nat) (v : Word), off < 4096 →
    s.hostAccess (.read bits (Config.base + off)) = s.hostRead bits off ∧
    s.hostAccess (.write bits (Config.base + off) v) = s.hostWrite bits off v) ∧
  (∀ (s : State) (bits addr : Nat) (v : Word), addr < Config.base ∨ Config.base + 4096 ≤ addr →
    s.hostAccess (.read bits addr) = .completes .notSelected s ∧
    s.hostAccess (.write bits addr v) = .completes .notSelected s)

-- ==== Whole-machine rules ====

/-- The machine never stops: every step answers a next state (R97 and the fault entry of R223; the model's Fault type has
no constructor). -/
def Obligations.EveryStepAnswersNext : Prop := ∀ s : State, ∃ s', step s = .next s'

/-- Every step keeps the invariant: the queue holds at most QDEPTH words, a faulted engine is idle, and the fault fields
agree with FAULT. -/
def Obligations.StepKeepsInvariant : Prop := ∀ s s' : State, s.Inv → step s = .next s' → s'.Inv

/-- The state after reset meets the invariant. -/
def Obligations.ResetMeetsInvariant : Prop := State.reset.Inv

/-- Every wait ends: from every state of the invariant, whatever the free choices, within a bound given by the work ahead
the machine is at rest, with every access completed and every command retired, faulted or discarded (R267). That the
outside's events are a finite list and that agents move one at a time is the model's choice (log 3, log 4). -/
def Obligations.MachineComesToRest : Prop :=
  ∀ s : State, s.Inv → ∃ s', Sys2Proof.core.run s.work s = .next s' ∧ s'.AtRest

/-- Only a command that retires, a DATA or TAG write or the reset input changes a data register, valid and tag included: a
command only its destinations, a write only the one register it names, on an idle engine; the reset gives all their
values of reset (R20, R25, R66, R67, R260). -/
def Obligations.RegistersChangeOnlyByCommandsOrHost : Prop :=
  ∀ s s' : State, step s = .next s' → s'.regs ≠ s.regs →
    (∃ w i, s.executing = some w ∧ decode w = .ok i ∧ s.fault = false ∧ exec i s.arbitrated = .next s' ∧
      s.arbitrated.Retired s' ∧ ∀ r, (∀ t, (r, t) ∉ destinationsOf i) → s'.reg r = s.reg r) ∨
    (∃ bits addr v off i, s.presented = some (.write bits addr v) ∧ windowOffset addr = some off ∧
      ((∃ j, selectPort bits off = some (.data i j)) ∨ selectPort bits off = some (.tag i)) ∧ s.idle = true ∧
      s.AccessTakes s' (.write bits addr v) ∧ ∀ r, r ≠ i → s'.reg r = s.reg r) ∨
    (s.inputs = .reset :: s'.inputs ∧ ∀ r, s'.reg r = ⟨false, 15#4, 0#128⟩)
end

