-- ==== Sys2Proof/Laws/Decode.lean ====
section
/-! SUPPORT. The fields of a word of format C, and when the last check of the decoder accepts. -/

namespace Sys2Proof

open Sys2Proof.Machine

/-- A nibble below a shifted number is added to it. -/
theorem or_nibble (a : Nat) {b : Nat} (h : b < 2 ^ 4) : a * 2 ^ 4 ||| b = a * 2 ^ 4 + b := by
  rw [← Nat.shiftLeft_eq, Nat.shiftLeft_add_eq_or_of_lt h]

/-- The word of format C as a number (R91). -/
theorem formatC_toNat (op : BitVec 8) (t rd rs1 rs2 rd2 : BitVec 4) :
    (formatC op t rd rs1 rs2 rd2).toNat =
      op.toNat * 2 ^ 24 + t.toNat * 2 ^ 20 + rd.toNat * 2 ^ 16 + rs1.toNat * 2 ^ 12 + rs2.toNat * 2 ^ 8 +
        rd2.toNat * 2 ^ 4 := by
  unfold formatC
  simp only [BitVec.toNat_append, BitVec.toNat_ofNat, Nat.shiftLeft_eq, Nat.zero_mod, Nat.or_zero,
    or_nibble _ (BitVec.isLt _)]
  ring

/-- The fields of a word of format C (R91). -/
theorem hasFields_formatC (op : BitVec 8) (t rd rs1 rs2 rd2 : BitVec 4) :
    HasFields (formatC op t rd rs1 rs2 rd2) op.toNat t.toNat rd.toNat rs1.toNat rs2.toNat rd2.toNat := by
  have := op.isLt
  have := t.isLt
  have := rd.isLt
  have := rs1.isLt
  have := rs2.isLt
  have := rd2.isLt
  unfold HasFields bitsFrom
  rw [formatC_toNat]
  refine ⟨?_, ?_, ?_, ?_, ?_, ?_, ?_⟩ <;> omega

/-- A field as a number. -/
theorem extract_toNat (w : Word) (lo n : Nat) : (w.extractLsb' lo n).toNat = bitsFrom w lo n := by
  rw [BitVec.extractLsb'_toNat, Nat.shiftRight_eq_div_pow]; rfl

@[simp] theorem opField_formatC (op : BitVec 8) (t rd rs1 rs2 rd2 : BitVec 4) :
    opField (formatC op t rd rs1 rs2 rd2) = op :=
  BitVec.eq_of_toNat_eq ((extract_toNat ..).trans (hasFields_formatC ..).1)

@[simp] theorem tField_formatC (op : BitVec 8) (t rd rs1 rs2 rd2 : BitVec 4) :
    tField (formatC op t rd rs1 rs2 rd2) = t :=
  BitVec.eq_of_toNat_eq ((extract_toNat ..).trans (hasFields_formatC ..).2.1)

@[simp] theorem rdField_formatC (op : BitVec 8) (t rd rs1 rs2 rd2 : BitVec 4) :
    rdField (formatC op t rd rs1 rs2 rd2) = rd :=
  BitVec.eq_of_toNat_eq ((extract_toNat ..).trans (hasFields_formatC ..).2.2.1)

@[simp] theorem rs1Field_formatC (op : BitVec 8) (t rd rs1 rs2 rd2 : BitVec 4) :
    rs1Field (formatC op t rd rs1 rs2 rd2) = rs1 :=
  BitVec.eq_of_toNat_eq ((extract_toNat ..).trans (hasFields_formatC ..).2.2.2.1)

@[simp] theorem rs2Field_formatC (op : BitVec 8) (t rd rs1 rs2 rd2 : BitVec 4) :
    rs2Field (formatC op t rd rs1 rs2 rd2) = rs2 :=
  BitVec.eq_of_toNat_eq ((extract_toNat ..).trans (hasFields_formatC ..).2.2.2.2.1)

@[simp] theorem rd2Field_formatC (op : BitVec 8) (t rd rs1 rs2 rd2 : BitVec 4) :
    rd2Field (formatC op t rd rs1 rs2 rd2) = rd2 :=
  BitVec.eq_of_toNat_eq ((extract_toNat ..).trans (hasFields_formatC ..).2.2.2.2.2.1)

@[simp] theorem zField_formatC (op : BitVec 8) (t rd rs1 rs2 rd2 : BitVec 4) :
    zField (formatC op t rd rs1 rs2 rd2) = 0#4 :=
  BitVec.eq_of_toNat_eq ((extract_toNat ..).trans (hasFields_formatC ..).2.2.2.2.2.2)

/-- A word whose bits 3:0 are 0 is the word of format C with its own fields. -/
theorem formatC_fields {w : Word} (h : zField w = 0#4) :
    formatC (opField w) (tField w) (rdField w) (rs1Field w) (rs2Field w) (rd2Field w) = w := by
  apply BitVec.eq_of_toNat_eq
  have hz : bitsFrom w 0 4 = 0 := by rw [← extract_toNat]; exact congrArg BitVec.toNat h
  have := w.isLt
  rw [formatC_toNat]
  simp only [opField, tField, rdField, rs1Field, rs2Field, rd2Field, extract_toNat, bitsFrom] at *
  omega

/-- What the last check of the decoder accepts. -/
theorem checkLegal_ok {i j : Instr} (h : checkLegal i = .ok j) : j = i ∧ i.wellFormed = true := by
  unfold checkLegal at h
  split at h
  · split at h
    · cases h; simp_all [Instr.wellFormed]
    · cases h
  · cases h

/-- What the last check of the decoder rejects. -/
theorem checkLegal_error_iff (i : Instr) : (∃ e, checkLegal i = .error e) ↔ i.wellFormed = false := by
  unfold checkLegal Instr.wellFormed
  split
  · split <;> simp_all
  · simp_all

/-- A legal command passes the last check of the decoder. -/
theorem checkLegal_of_wellFormed {i : Instr} (h : i.wellFormed = true) : checkLegal i = .ok i := by
  simp only [Instr.wellFormed, Bool.and_eq_true] at h
  simp [checkLegal, h.1, h.2]

end Sys2Proof
end

