-- ==== Sys2Proof/Laws/Lanes.lean ====
section
/-! SUPPORT. What the lane operations give: the bits of an OR, of a packed value and of a lane, the lanes of a packed
value, and that lanes determine a value. -/

namespace Sys2Proof.Machine

/-- The bits of an OR of scalars. -/
theorem getLsbD_orUpTo (n : Nat) (f : Nat → Scalar) (p : Nat) :
    (orUpTo n f).getLsbD p = true ↔ ∃ i, i < n ∧ (f i).getLsbD p = true := by
  induction n with
  | zero => simp [orUpTo]
  | succ n ih =>
    simp only [orUpTo, BitVec.getLsbD_or, Bool.or_eq_true, ih]
    constructor
    · rintro (⟨i, hi, h⟩ | h)
      · exact ⟨i, by omega, h⟩
      · exact ⟨n, by omega, h⟩
    · rintro ⟨i, hi, h⟩
      rcases Nat.lt_succ_iff_lt_or_eq.mp hi with h' | rfl
      · exact .inl ⟨i, h', h⟩
      · exact .inr h

/-- The bits of a packed value (00_scope.md section 5): bit `p` is bit `p mod K` of element `p / K`. -/
theorem getLsbD_pack {K n p : Nat} (e : Nat → Nat) (hK : 0 < K) (hp : p < 128) :
    (pack K n e).getLsbD p = (decide (p / K < n) && (e (p / K)).testBit (p % K)) := by
  have hpk : K * (p / K) + p % K = p := Nat.div_add_mod p K
  have hm : p % K < K := Nat.mod_lt p hK
  rw [Bool.eq_iff_iff, pack, getLsbD_orUpTo]
  simp only [BitVec.getLsbD_shiftLeft, BitVec.getLsbD_ofNat, Nat.testBit_mod_two_pow, Bool.and_eq_true,
    decide_eq_true_eq, Bool.not_eq_true', decide_eq_false_iff_not]
  constructor
  · rintro ⟨i, hi, ⟨-, h1⟩, -, h2, h3⟩
    have : p / K = i := by
      rw [Nat.div_eq_iff hK]
      constructor
      · rw [Nat.mul_comm]; omega
      · rw [Nat.mul_comm]; omega
    subst this
    have h4 : p - K * (p / K) = p % K := by omega
    rw [h4] at h3
    exact ⟨hi, h3⟩
  · rintro ⟨hi, h⟩
    have h4 : p - K * (p / K) = p % K := by omega
    refine ⟨p / K, hi, ⟨hp, by omega⟩, by omega, by omega, by rw [h4]; exact h⟩

/-- The bits of a lane (R5). -/
theorem testBit_lane (K : Nat) (v : Scalar) (i b : Nat) :
    (lane K v i).testBit b = (decide (b < K) && v.getLsbD (K * i + b)) := by
  simp only [lane, Nat.testBit_mod_two_pow]
  congr 1
  rw [BitVec.testBit_toNat, BitVec.getLsbD_ushiftRight]

/-- A lane is a number below 2^K (R6). -/
theorem lane_lt (K : Nat) (v : Scalar) (i : Nat) : lane K v i < 2 ^ K := Nat.mod_lt _ (by positivity)

/-- The lanes of a packed value. -/
theorem lane_pack {K n i : Nat} (e : Nat → Nat) (hi : K * i + K ≤ 128) :
    lane K (pack K n e) i = if i < n then e i % 2 ^ K else 0 := by
  apply Nat.eq_of_testBit_eq
  intro b
  rw [testBit_lane]
  by_cases hb : b < K
  · have hK : 0 < K := by omega
    have h1 : (K * i + b) / K = i := by
      rw [Nat.mul_add_div hK, Nat.div_eq_of_lt hb, Nat.add_zero]
    have h2 : (K * i + b) % K = b := by
      rw [Nat.mul_add_mod, Nat.mod_eq_of_lt hb]
    rw [getLsbD_pack e hK (by omega), h1, h2]
    split <;> simp_all
  · split <;> simp [hb]

/-- Two scalars with the same lanes at a width that divides 128 are equal. -/
theorem eq_of_lanes {K : Nat} (hK : 0 < K) (hd : K ∣ 128) {u v : Scalar}
    (h : ∀ i, i < 128 / K → lane K u i = lane K v i) : u = v := by
  apply BitVec.eq_of_getLsbD_eq
  intro p hp
  have hpk : K * (p / K) + p % K = p := Nat.div_add_mod p K
  have hi : p / K < 128 / K := by
    obtain ⟨c, hc⟩ := hd
    have : 128 / K = c := by rw [hc]; exact Nat.mul_div_cancel_left c hK
    rw [this]
    exact Nat.div_lt_of_lt_mul (by rw [← hc]; exact hp)
  have := congrArg (fun x => x.testBit (p % K)) (h _ hi)
  simpa [testBit_lane, Nat.mod_lt p hK, hpk] using this

/-- The lane widths are 1, 2, 4, ..., 128 (R4), and each divides 128. -/
theorem laneWidth_dvd {t : Tag} (h : t.toNat ≤ 7) : laneWidth t ∣ 128 := by
  have : (128 : Nat) = 2 ^ 7 := by norm_num
  rw [laneWidth, this]
  exact pow_dvd_pow 2 h

theorem laneWidth_pos (t : Tag) : 0 < laneWidth t := by unfold laneWidth; positivity

/-- The lane below `128 / K` lies within the 128 bits. -/
theorem lane_fits {K i : Nat} (h : i < 128 / K) : K * i + K ≤ 128 := by
  have h1 : K * (i + 1) ≤ K * (128 / K) := Nat.mul_le_mul_left K h
  have h2 : K * (128 / K) ≤ 128 := Nat.mul_div_le 128 K
  rw [Nat.mul_add, Nat.mul_one] at h1
  omega

/-- The absolute difference is below any bound of both numbers. -/
theorem absDiff_lt {p q b : Nat} (hp : p < b) (hq : q < b) : absDiff p q < b := by
  unfold absDiff; omega

theorem absDiff_comm (p q : Nat) : absDiff p q = absDiff q p := Nat.add_comm ..

@[simp] theorem absDiff_self (p : Nat) : absDiff p p = 0 := by simp [absDiff]

theorem absDiff_cast (p q : Nat) : ((absDiff p q : Nat) : Int) = |(p : Int) - q| := by
  unfold absDiff
  rcases Nat.le_total p q with h | h
  · rw [abs_of_nonpos (by omega)]; omega
  · rw [abs_of_nonneg (by omega)]; omega

/-- ANY's lanes. -/
theorem lane_anyValue {K i : Nat} (a : Scalar) (hK : 0 < K) (hi : i < 128 / K) :
    lane K (anyValue K a) i = if lane K a i = 0 then 0 else 1 := by
  rw [anyValue, lane_pack _ (lane_fits hi), if_pos hi]
  have : 1 < 2 ^ K := Nat.one_lt_two_pow (by omega)
  split <;> simp [Nat.mod_eq_of_lt this]

/-- MINHWD's lanes (R181). -/
theorem lane_minDistance {K i : Nat} (a b : Scalar) (hi : i < 128 / K) :
    lane K (minDistance K a b) i = absDiff (lane K a i) (lane K b i) := by
  rw [minDistance, lane_pack _ (lane_fits hi), if_pos hi,
    Nat.mod_eq_of_lt (absDiff_lt (lane_lt ..) (lane_lt ..))]

/-- MAXHWD's lanes (R182). -/
theorem lane_maxDistance {K i : Nat} (a b : Scalar) (hi : i < 128 / K) :
    lane K (maxDistance K a b) i = maxDistanceLane K (lane K a i) (lane K b i) := by
  rw [maxDistance, lane_pack _ (lane_fits hi), if_pos hi]
  apply Nat.mod_eq_of_lt
  unfold maxDistanceLane
  split
  · next h => rw [h.1]; norm_num
  · exact absDiff_lt (lane_lt ..) (lane_lt ..)

/-- The bits of the LEFT mask table (R27). -/
theorem getLsbD_leftMask {l p : Nat} (hp : p < 128) :
    (leftMask l).getLsbD p = decide (2 ^ (6 - l) ≤ p % 2 ^ (7 - l)) := by
  rw [leftMask, getLsbD_pack _ one_pos hp]
  simp only [Nat.div_one, hp, decide_true, Bool.true_and, Nat.mod_one]
  by_cases h : 2 ^ (6 - l) ≤ p % 2 ^ (7 - l) <;> simp [h]

/-- The bits of the RIGHT mask table (R27). -/
theorem getLsbD_rightMask {l p : Nat} (hp : p < 128) :
    (rightMask l).getLsbD p = !decide (2 ^ (6 - l) ≤ p % 2 ^ (7 - l)) := by
  rw [rightMask, BitVec.getLsbD_not, getLsbD_leftMask hp]
  simp [hp]

/-- For K = 2^k with k <= 6, the level 6 - k splits each block of 2K bits: bit `K*i + b` of a mask with b < K is in the
left half exactly when i is odd (R29). -/
theorem mask_half_iff {k i b : Nat} (hk : k ≤ 6) (hb : b < 2 ^ k) :
    2 ^ (6 - (6 - k)) ≤ (2 ^ k * i + b) % 2 ^ (7 - (6 - k)) ↔ i % 2 = 1 := by
  have e1 : 6 - (6 - k) = k := by omega
  have e2 : 7 - (6 - k) = k + 1 := by omega
  rw [e1, e2, pow_succ, Nat.mod_mul, Nat.mul_add_mod, Nat.mod_eq_of_lt hb, Nat.mul_add_div (by positivity),
    Nat.div_eq_of_lt hb, Nat.add_zero]
  rcases Nat.mod_two_eq_zero_or_one i with h | h <;> simp [h]
  omega

/-- A value masked with RIGHT_MASKS at the level of K keeps its even-numbered lanes and no other (R29). -/
theorem lane_and_rightMask {t : Tag} {i : Nat} (v : Scalar) (ht : t.toNat ≤ 6) (hi : i < 128 / laneWidth t) :
    lane (laneWidth t) (v &&& rightMask (maskLevel t)) i = if i % 2 = 0 then lane (laneWidth t) v i else 0 := by
  have hf := lane_fits hi
  apply Nat.eq_of_testBit_eq
  intro b
  rw [testBit_lane]
  by_cases hb : b < laneWidth t
  · rw [BitVec.getLsbD_and, getLsbD_rightMask (by omega)]
    have := mask_half_iff (i := i) ht hb
    unfold maskLevel laneWidth at *
    simp only [this]
    rcases Nat.mod_two_eq_zero_or_one i with h | h <;> simp [h, testBit_lane]
  · split <;> simp [hb, testBit_lane]

/-- A value masked with LEFT_MASKS at the level of K keeps its odd-numbered lanes and no other (R29). -/
theorem lane_and_leftMask {t : Tag} {i : Nat} (v : Scalar) (ht : t.toNat ≤ 6) (hi : i < 128 / laneWidth t) :
    lane (laneWidth t) (v &&& leftMask (maskLevel t)) i = if i % 2 = 1 then lane (laneWidth t) v i else 0 := by
  have hf := lane_fits hi
  apply Nat.eq_of_testBit_eq
  intro b
  rw [testBit_lane]
  by_cases hb : b < laneWidth t
  · rw [BitVec.getLsbD_and, getLsbD_leftMask (by omega)]
    have := mask_half_iff (i := i) ht hb
    unfold maskLevel laneWidth at *
    simp only [this]
    rcases Nat.mod_two_eq_zero_or_one i with h | h <;> simp [h, testBit_lane]
  · split <;> simp [hb, testBit_lane]

/-- A lane of width 2K is its upper and its lower half (R5). -/
theorem lane_double (K : Nat) (v : Scalar) (j : Nat) :
    lane (2 * K) v j = lane K v (2 * j) + 2 ^ K * lane K v (2 * j + 1) := by
  have e1 : (v >>> (2 * K * j)).toNat = v.toNat / 2 ^ (2 * K * j) := by
    rw [BitVec.toNat_ushiftRight, Nat.shiftRight_eq_div_pow]
  have e2 : (v >>> (K * (2 * j))).toNat = v.toNat / 2 ^ (2 * K * j) := by
    rw [BitVec.toNat_ushiftRight, Nat.shiftRight_eq_div_pow]; congr 2; ring
  have e3 : (v >>> (K * (2 * j + 1))).toNat = v.toNat / 2 ^ (2 * K * j) / 2 ^ K := by
    rw [BitVec.toNat_ushiftRight, Nat.shiftRight_eq_div_pow, Nat.div_div_eq_div_mul, ← pow_add]; congr 2; ring
  unfold lane
  rw [e1, e2, e3, two_mul, pow_add, Nat.mod_mul]

end Sys2Proof.Machine
end

