-- ==== Sys2Proof/Laws/State.lean ====
section
/-! SUPPORT. One lemma per field per update of the state, and what reading a register gives after a write. -/

namespace Sys2Proof.Machine

@[simp] theorem State.setReg_regs (s : State) (i : RegIdx) (d : DataReg) : (s.setReg i d).regs = s.regs.set i.toNat d i.isLt := rfl
@[simp] theorem State.setReg_queue (s : State) (i : RegIdx) (d : DataReg) : (s.setReg i d).queue = s.queue := rfl
@[simp] theorem State.setReg_executing (s : State) (i : RegIdx) (d : DataReg) : (s.setReg i d).executing = s.executing := rfl
@[simp] theorem State.setReg_retired (s : State) (i : RegIdx) (d : DataReg) : (s.setReg i d).retired = s.retired := rfl
@[simp] theorem State.setReg_fault (s : State) (i : RegIdx) (d : DataReg) : (s.setReg i d).fault = s.fault := rfl
@[simp] theorem State.setReg_drop (s : State) (i : RegIdx) (d : DataReg) : (s.setReg i d).drop = s.drop := rfl
@[simp] theorem State.setReg_fcause (s : State) (i : RegIdx) (d : DataReg) : (s.setReg i d).fcause = s.fcause := rfl
@[simp] theorem State.setReg_fopnd (s : State) (i : RegIdx) (d : DataReg) : (s.setReg i d).fopnd = s.fopnd := rfl
@[simp] theorem State.setReg_fie (s : State) (i : RegIdx) (d : DataReg) : (s.setReg i d).fie = s.fie := rfl
@[simp] theorem State.setReg_fcmd (s : State) (i : RegIdx) (d : DataReg) : (s.setReg i d).fcmd = s.fcmd := rfl
@[simp] theorem State.setReg_fidx (s : State) (i : RegIdx) (d : DataReg) : (s.setReg i d).fidx = s.fidx := rfl
@[simp] theorem State.setReg_waiting (s : State) (i : RegIdx) (d : DataReg) : (s.setReg i d).waiting = s.waiting := rfl
@[simp] theorem State.setReg_inputs (s : State) (i : RegIdx) (d : DataReg) : (s.setReg i d).inputs = s.inputs := rfl
@[simp] theorem State.setReg_responses (s : State) (i : RegIdx) (d : DataReg) : (s.setReg i d).responses = s.responses := rfl
@[simp] theorem State.setReg_pick (s : State) (i : RegIdx) (d : DataReg) : (s.setReg i d).pick = s.pick := rfl
@[simp] theorem State.setReg_draws (s : State) (i : RegIdx) (d : DataReg) : (s.setReg i d).draws = s.draws := rfl

@[simp] theorem State.put_regs (s : State) (i : RegIdx) (v : Scalar) (t : Tag) : (s.put i v t).regs = s.regs.set i.toNat ⟨true, t, v⟩ i.isLt := rfl
@[simp] theorem State.put_queue (s : State) (i : RegIdx) (v : Scalar) (t : Tag) : (s.put i v t).queue = s.queue := rfl
@[simp] theorem State.put_executing (s : State) (i : RegIdx) (v : Scalar) (t : Tag) : (s.put i v t).executing = s.executing := rfl
@[simp] theorem State.put_retired (s : State) (i : RegIdx) (v : Scalar) (t : Tag) : (s.put i v t).retired = s.retired := rfl
@[simp] theorem State.put_fault (s : State) (i : RegIdx) (v : Scalar) (t : Tag) : (s.put i v t).fault = s.fault := rfl
@[simp] theorem State.put_drop (s : State) (i : RegIdx) (v : Scalar) (t : Tag) : (s.put i v t).drop = s.drop := rfl
@[simp] theorem State.put_fcause (s : State) (i : RegIdx) (v : Scalar) (t : Tag) : (s.put i v t).fcause = s.fcause := rfl
@[simp] theorem State.put_fopnd (s : State) (i : RegIdx) (v : Scalar) (t : Tag) : (s.put i v t).fopnd = s.fopnd := rfl
@[simp] theorem State.put_fie (s : State) (i : RegIdx) (v : Scalar) (t : Tag) : (s.put i v t).fie = s.fie := rfl
@[simp] theorem State.put_fcmd (s : State) (i : RegIdx) (v : Scalar) (t : Tag) : (s.put i v t).fcmd = s.fcmd := rfl
@[simp] theorem State.put_fidx (s : State) (i : RegIdx) (v : Scalar) (t : Tag) : (s.put i v t).fidx = s.fidx := rfl
@[simp] theorem State.put_waiting (s : State) (i : RegIdx) (v : Scalar) (t : Tag) : (s.put i v t).waiting = s.waiting := rfl
@[simp] theorem State.put_inputs (s : State) (i : RegIdx) (v : Scalar) (t : Tag) : (s.put i v t).inputs = s.inputs := rfl
@[simp] theorem State.put_responses (s : State) (i : RegIdx) (v : Scalar) (t : Tag) : (s.put i v t).responses = s.responses := rfl
@[simp] theorem State.put_pick (s : State) (i : RegIdx) (v : Scalar) (t : Tag) : (s.put i v t).pick = s.pick := rfl
@[simp] theorem State.put_draws (s : State) (i : RegIdx) (v : Scalar) (t : Tag) : (s.put i v t).draws = s.draws := rfl

@[simp] theorem State.retire_regs (s : State) : s.retire.regs = s.regs := rfl
@[simp] theorem State.retire_queue (s : State) : s.retire.queue = s.queue := rfl
@[simp] theorem State.retire_executing (s : State) : s.retire.executing = none := rfl
@[simp] theorem State.retire_retired (s : State) : s.retire.retired = s.retired + 1#32 := rfl
@[simp] theorem State.retire_fault (s : State) : s.retire.fault = s.fault := rfl
@[simp] theorem State.retire_drop (s : State) : s.retire.drop = s.drop := rfl
@[simp] theorem State.retire_fcause (s : State) : s.retire.fcause = s.fcause := rfl
@[simp] theorem State.retire_fopnd (s : State) : s.retire.fopnd = s.fopnd := rfl
@[simp] theorem State.retire_fie (s : State) : s.retire.fie = s.fie := rfl
@[simp] theorem State.retire_fcmd (s : State) : s.retire.fcmd = s.fcmd := rfl
@[simp] theorem State.retire_fidx (s : State) : s.retire.fidx = s.fidx := rfl
@[simp] theorem State.retire_waiting (s : State) : s.retire.waiting = s.waiting := rfl
@[simp] theorem State.retire_inputs (s : State) : s.retire.inputs = s.inputs := rfl
@[simp] theorem State.retire_responses (s : State) : s.retire.responses = s.responses := rfl
@[simp] theorem State.retire_pick (s : State) : s.retire.pick = s.pick := rfl
@[simp] theorem State.retire_draws (s : State) : s.retire.draws = s.draws := rfl

@[simp] theorem State.raiseFault_regs (s : State) (c : Cause) (o : Bool) : (s.raiseFault c o).regs = s.regs := rfl
@[simp] theorem State.raiseFault_queue (s : State) (c : Cause) (o : Bool) : (s.raiseFault c o).queue = [] := rfl
@[simp] theorem State.raiseFault_executing (s : State) (c : Cause) (o : Bool) : (s.raiseFault c o).executing = none := rfl
@[simp] theorem State.raiseFault_retired (s : State) (c : Cause) (o : Bool) : (s.raiseFault c o).retired = s.retired := rfl
@[simp] theorem State.raiseFault_fault (s : State) (c : Cause) (o : Bool) : (s.raiseFault c o).fault = true := rfl
@[simp] theorem State.raiseFault_drop (s : State) (c : Cause) (o : Bool) : (s.raiseFault c o).drop = (s.drop || !s.queue.isEmpty) := rfl
@[simp] theorem State.raiseFault_fcause (s : State) (c : Cause) (o : Bool) : (s.raiseFault c o).fcause = c := rfl
@[simp] theorem State.raiseFault_fopnd (s : State) (c : Cause) (o : Bool) : (s.raiseFault c o).fopnd = o := rfl
@[simp] theorem State.raiseFault_fie (s : State) (c : Cause) (o : Bool) : (s.raiseFault c o).fie = s.fie := rfl
@[simp] theorem State.raiseFault_fcmd (s : State) (c : Cause) (o : Bool) : (s.raiseFault c o).fcmd = s.executingWord := rfl
@[simp] theorem State.raiseFault_fidx (s : State) (c : Cause) (o : Bool) : (s.raiseFault c o).fidx = s.retired := rfl
@[simp] theorem State.raiseFault_waiting (s : State) (c : Cause) (o : Bool) : (s.raiseFault c o).waiting = s.waiting := rfl
@[simp] theorem State.raiseFault_inputs (s : State) (c : Cause) (o : Bool) : (s.raiseFault c o).inputs = s.inputs := rfl
@[simp] theorem State.raiseFault_responses (s : State) (c : Cause) (o : Bool) : (s.raiseFault c o).responses = s.responses := rfl
@[simp] theorem State.raiseFault_pick (s : State) (c : Cause) (o : Bool) : (s.raiseFault c o).pick = s.pick := rfl
@[simp] theorem State.raiseFault_draws (s : State) (c : Cause) (o : Bool) : (s.raiseFault c o).draws = s.draws := rfl

@[simp] theorem State.draw_regs (s : State) : s.draw.regs = s.regs := rfl
@[simp] theorem State.draw_queue (s : State) : s.draw.queue = s.queue := rfl
@[simp] theorem State.draw_executing (s : State) : s.draw.executing = s.executing := rfl
@[simp] theorem State.draw_retired (s : State) : s.draw.retired = s.retired := rfl
@[simp] theorem State.draw_fault (s : State) : s.draw.fault = s.fault := rfl
@[simp] theorem State.draw_drop (s : State) : s.draw.drop = s.drop := rfl
@[simp] theorem State.draw_fcause (s : State) : s.draw.fcause = s.fcause := rfl
@[simp] theorem State.draw_fopnd (s : State) : s.draw.fopnd = s.fopnd := rfl
@[simp] theorem State.draw_fie (s : State) : s.draw.fie = s.fie := rfl
@[simp] theorem State.draw_fcmd (s : State) : s.draw.fcmd = s.fcmd := rfl
@[simp] theorem State.draw_fidx (s : State) : s.draw.fidx = s.fidx := rfl
@[simp] theorem State.draw_waiting (s : State) : s.draw.waiting = s.waiting := rfl
@[simp] theorem State.draw_inputs (s : State) : s.draw.inputs = s.inputs := rfl
@[simp] theorem State.draw_responses (s : State) : s.draw.responses = s.responses := rfl
@[simp] theorem State.draw_pick (s : State) : s.draw.pick = Config.pick s.draws := rfl
@[simp] theorem State.draw_draws (s : State) : s.draw.draws = s.draws + 1 := rfl

@[simp] theorem State.applyReset_regs (s : State) : s.applyReset.regs = State.reset.regs := rfl
@[simp] theorem State.applyReset_queue (s : State) : s.applyReset.queue = State.reset.queue := rfl
@[simp] theorem State.applyReset_executing (s : State) : s.applyReset.executing = State.reset.executing := rfl
@[simp] theorem State.applyReset_retired (s : State) : s.applyReset.retired = State.reset.retired := rfl
@[simp] theorem State.applyReset_fault (s : State) : s.applyReset.fault = State.reset.fault := rfl
@[simp] theorem State.applyReset_drop (s : State) : s.applyReset.drop = State.reset.drop := rfl
@[simp] theorem State.applyReset_fcause (s : State) : s.applyReset.fcause = State.reset.fcause := rfl
@[simp] theorem State.applyReset_fopnd (s : State) : s.applyReset.fopnd = State.reset.fopnd := rfl
@[simp] theorem State.applyReset_fie (s : State) : s.applyReset.fie = State.reset.fie := rfl
@[simp] theorem State.applyReset_fcmd (s : State) : s.applyReset.fcmd = State.reset.fcmd := rfl
@[simp] theorem State.applyReset_fidx (s : State) : s.applyReset.fidx = State.reset.fidx := rfl
@[simp] theorem State.applyReset_waiting (s : State) : s.applyReset.waiting = State.reset.waiting := rfl
@[simp] theorem State.applyReset_inputs (s : State) : s.applyReset.inputs = s.inputs := rfl
@[simp] theorem State.applyReset_responses (s : State) : s.applyReset.responses = if s.waiting.isSome then .abortedByReset :: s.responses else s.responses := rfl
@[simp] theorem State.applyReset_pick (s : State) : s.applyReset.pick = s.pick := rfl
@[simp] theorem State.applyReset_draws (s : State) : s.applyReset.draws = s.draws := rfl

/-- What a register reads as after a register is replaced. -/
theorem State.reg_setReg (s : State) (i r : RegIdx) (d : DataReg) :
    (s.setReg i d).reg r = if r = i then d else s.reg r := by
  unfold State.reg State.setReg
  by_cases h : r = i
  · subst h; simp
  · have : i.toNat ≠ r.toNat := fun e => h (BitVec.eq_of_toNat_eq e.symm)
    simp [h, this]

@[simp] theorem State.reg_setReg_self (s : State) (i : RegIdx) (d : DataReg) : (s.setReg i d).reg i = d := by
  simp [State.reg_setReg]

theorem State.reg_setReg_ne (s : State) {i r : RegIdx} (d : DataReg) (h : r ≠ i) :
    (s.setReg i d).reg r = s.reg r := by
  simp [State.reg_setReg, h]

/-- What a register reads as after `put` (R25). -/
theorem State.reg_put (s : State) (i r : RegIdx) (v : Scalar) (t : Tag) :
    (s.put i v t).reg r = if r = i then ⟨true, t, v⟩ else s.reg r := State.reg_setReg ..

@[simp] theorem State.reg_put_self (s : State) (i : RegIdx) (v : Scalar) (t : Tag) :
    (s.put i v t).reg i = ⟨true, t, v⟩ := by
  simp [State.reg_put]

theorem State.reg_put_ne (s : State) {i r : RegIdx} (v : Scalar) (t : Tag) (h : r ≠ i) :
    (s.put i v t).reg r = s.reg r := by
  simp [State.reg_put, h]

@[simp] theorem State.reg_retire (s : State) (r : RegIdx) : s.retire.reg r = s.reg r := rfl
@[simp] theorem State.reg_raiseFault (s : State) (c : Cause) (o : Bool) (r : RegIdx) :
    (s.raiseFault c o).reg r = s.reg r := rfl
@[simp] theorem State.reg_draw (s : State) (r : RegIdx) : s.draw.reg r = s.reg r := rfl

/-- The data register file is what its registers read as. -/
theorem State.regs_eq_of_reg {s s' : State} (h : ∀ r, s'.reg r = s.reg r) : s'.regs = s.regs := by
  apply Vector.ext
  intro k hk
  have := h (BitVec.ofNat 4 k)
  have e : (BitVec.ofNat 4 k).toNat = k := by
    rw [BitVec.toNat_ofNat]; exact Nat.mod_eq_of_lt hk
  simpa [State.reg, e] using this

/-- Every register reads as its reset value after reset (R45). -/
@[simp] theorem State.reg_reset (r : RegIdx) : State.reset.reg r = ⟨false, 15#4, 0#128⟩ := by
  simp [State.reg, State.reset]

end Sys2Proof.Machine
end

