-- ==== Sys2Proof/Laws/HostPort.lean ====
section
/-! SUPPORT. What the operations of the host port give: the offsets, CTRL writes, the words of a register. -/

namespace Sys2Proof.Machine

/-- QDEPTH is 1 to 255 (D29). -/
theorem qdepth_bounds : 1 ≤ Config.qdepth ∧ Config.qdepth ≤ 255 := by
  have := Config.qdepthPred.isLt
  unfold Config.qdepth
  omega

/-- Above SYNC only DATA and TAG words stand in the window (R61). -/
theorem portAt_above {off : Nat} (h : 0x020 < off) :
    portAt off = if 0x100 ≤ off ∧ off < 0x300 then filePort (off - 0x100) else none := by
  unfold portAt
  split <;> first | omega | rfl

/-- The DATA and TAG words are the only ports of the register file region (R61). -/
theorem filePort_cases (rel : Nat) :
    (∃ i j, filePort rel = some (.data i j)) ∨ (∃ i, filePort rel = some (.tag i)) ∨ filePort rel = none := by
  unfold filePort
  split
  · exact .inl ⟨_, _, rfl⟩
  · split
    · exact .inr (.inl ⟨_, rfl⟩)
    · exact .inr (.inr rfl)

/-- An offset below 4096 from BASE lies in the window (R61). -/
theorem windowOffset_base {off : Nat} (h : off < 4096) : windowOffset (Config.base + off) = some off := by
  simp [windowOffset, h]

/-- Only offset 0x00C reaches CTRL (R61). -/
theorem selectPort_ctrl {bits off : Nat} (h : selectPort bits off = some .ctrl) : bits = 32 ∧ off = 0x00C := by
  unfold selectPort at h
  split at h
  · next hb =>
    refine ⟨hb.1, ?_⟩
    unfold portAt at h
    split at h <;> first | rfl | cases h | skip
    split at h
    · rcases filePort_cases (off - 0x100) with ⟨i, j, e⟩ | ⟨i, e⟩ | e <;> rw [e] at h <;> cases h
    · cases h
  · cases h

/-- A DATA or TAG word stands at offset 0x100 or above (R61). -/
theorem selectPort_file {bits off : Nat} {p : Port} (h : selectPort bits off = some p)
    (hp : (∃ i j, p = .data i j) ∨ ∃ i, p = .tag i) : 0x100 ≤ off := by
  unfold selectPort at h
  split at h
  · unfold portAt at h
    split at h <;> try (cases h; rcases hp with ⟨i, j, e⟩ | ⟨i, e⟩ <;> cases e)
    split at h
    · next hr => exact hr.1
    · cases h
  · cases h

/-- The effect of CLRF where a fault is recorded, and where none is (R230). -/
theorem State.clearFault_of_fault {s : State} (h : s.fault = true) :
    s.clearFault = { s with fault := false, drop := false, fcause := .none, fopnd := false } := by
  simp [State.clearFault, h]

theorem State.clearFault_of_no_fault {s : State} (h : s.fault = false) : s.clearFault = s := by
  simp [State.clearFault, h]

/-- What a CTRL write can do (R36, R230). -/
theorem State.writeCtrl_cases (s : State) (v : Word) :
    (v.getLsbD 8 = true ∧ s.fault = true ∧ s.writeCtrl v =
      { s with fie := v.getLsbD 0, fault := false, drop := false, fcause := .none, fopnd := false }) ∨
    ((v.getLsbD 8 = false ∨ s.fault = false) ∧ s.writeCtrl v = { s with fie := v.getLsbD 0 }) := by
  unfold State.writeCtrl State.setFie State.clearFault
  cases h8 : v.getLsbD 8 with
  | false => exact .inr ⟨.inl rfl, by simp⟩
  | true =>
    cases hf : s.fault with
    | true => exact .inl ⟨rfl, rfl, by simp⟩
    | false => exact .inr ⟨.inr rfl, by simp⟩

/-- The bits of a register after a DATA write (R66). -/
theorem getLsbD_setDataWord (x : Scalar) (j : BitVec 2) (v : Word) {p : Nat} (hp : p < 128) :
    (setDataWord x j v).getLsbD p =
      if 32 * j.toNat ≤ p ∧ p < 32 * j.toNat + 32 then v.getLsbD (p - 32 * j.toNat) else x.getLsbD p := by
  have hm : ∀ q, (0xFFFFFFFF#128).getLsbD q = decide (q < 32) := by
    intro q
    have : (0xFFFFFFFF#128) = (BitVec.allOnes 32).setWidth 128 := by decide
    rw [this, BitVec.getLsbD_setWidth, BitVec.getLsbD_allOnes]
    by_cases h : q < 32 <;> simp [h]
    omega
  unfold setDataWord
  simp only [BitVec.getLsbD_or, BitVec.getLsbD_and, BitVec.getLsbD_not, BitVec.getLsbD_shiftLeft, hm,
    BitVec.getLsbD_setWidth, hp, decide_true, Bool.true_and]
  by_cases h1 : p < 32 * j.toNat
  · simp [h1, Nat.not_le.mpr h1]
  · by_cases h2 : p - 32 * j.toNat < 32
    · have h3 : p - 32 * j.toNat < 128 := by omega
      simp [h1, h2, h3, Nat.not_lt.mp h1, show p < 32 * j.toNat + 32 by omega]
    · have h3 : v.getLsbD (p - 32 * j.toNat) = false := BitVec.getLsbD_of_ge _ _ (by omega)
      simp [h1, h2, h3, show ¬p < 32 * j.toNat + 32 by omega]

end Sys2Proof.Machine
end

