-- ==== Sys2Proof/Laws/Ops.lean ====
section
/-! SUPPORT. What the shared operations can do: reading operands, running a command, taking a fault, executing. -/

namespace Sys2Proof.Machine

/-- A source is read exactly when it holds a value of the wanted tag (R96). -/
theorem State.readSource_ok_iff {s : State} {r : RegIdx} {t : Tag} {o : Bool} {a : Scalar} :
    s.readSource r t o = .ok a ↔ s.Holds r t ∧ a = (s.reg r).data := by
  unfold State.readSource State.Holds
  split
  · simp_all
  · split
    · simp_all
    · simp_all only [ne_eq, not_not, Bool.not_eq_false, Except.ok.injEq, and_self, true_and]
      exact eq_comm

/-- The one operand of a command, by the first failing check (R226). -/
theorem State.readOne_eq (s : State) (r : RegIdx) (t : Tag) :
    s.readOne r t = match firstFailure s false [(r, t)] with
      | some (c, o) => .error ⟨c, o⟩
      | none => .ok (s.reg r).data := by
  unfold State.readOne State.readSource
  simp only [firstFailure]
  split
  · simp
  · split <;> simp

/-- The two operands of a command, by the first failing check (R226). -/
theorem State.readTwo_eq (s : State) (r₁ r₂ : RegIdx) (t : Tag) :
    s.readTwo r₁ r₂ t = match firstFailure s false [(r₁, t), (r₂, t)] with
      | some (c, o) => .error ⟨c, o⟩
      | none => .ok ((s.reg r₁).data, (s.reg r₂).data) := by
  unfold State.readTwo State.readSource
  simp only [firstFailure]
  by_cases h1 : (s.reg r₁).valid = false
  · simp [h1]
  · by_cases h2 : (s.reg r₁).tag = t
    · by_cases h3 : (s.reg r₂).valid = false
      · simp [h1, h2, h3]
      · by_cases h4 : (s.reg r₂).tag = t <;> simp [h1, h2, h3, h4]
    · simp [h1, h2]

/-- No check fails exactly when the one source can be read. -/
theorem firstFailure_one_none {s : State} {o : Bool} {r : RegIdx} {t : Tag} :
    firstFailure s o [(r, t)] = none ↔ s.Holds r t := by
  unfold State.Holds
  simp only [firstFailure]
  split
  · simp_all
  · split <;> simp_all

/-- No check fails exactly when both sources can be read. -/
theorem firstFailure_two_none {s : State} {o : Bool} {r₁ r₂ : RegIdx} {t₁ t₂ : Tag} :
    firstFailure s o [(r₁, t₁), (r₂, t₂)] = none ↔ s.Holds r₁ t₁ ∧ s.Holds r₂ t₂ := by
  rw [← firstFailure_one_none (o := true) (r := r₂)]
  unfold State.Holds
  rw [firstFailure.eq_2]
  split
  · simp_all
  · split <;> simp_all

/-- A failing check is UNINIT or TAG. -/
theorem firstFailure_cause {s : State} {o : Bool} {l : List (RegIdx × Tag)} {c : Cause} {o' : Bool}
    (h : firstFailure s o l = some (c, o')) : c = .uninit ∨ c = .tag := by
  induction l generalizing o with
  | nil => simp [firstFailure] at h
  | cons x xs ih =>
    obtain ⟨r, t⟩ := x
    simp only [firstFailure] at h
    split at h
    · simp_all
    · split at h
      · simp_all
      · exact ih h

/-- The fault operation makes the fault entry of R223. -/
theorem State.faultEntry_raiseFault (s : State) (c : Cause) (o : Bool) : s.FaultEntry (s.raiseFault c o) c o := by
  unfold State.FaultEntry State.raiseFault State.executingWord
  cases s.queue <;> simp

/-- The fault entry of R223 is what the fault operation makes. -/
theorem State.faultEntry_iff {s s' : State} {c : Cause} {o : Bool} :
    s.FaultEntry s' c o ↔ s' = s.raiseFault c o := by
  have h := s.faultEntry_raiseFault c o
  unfold State.FaultEntry at *
  rw [h]

/-- Writing one register and retiring. -/
theorem State.retiredWriting_put (s : State) (rd : RegIdx) (v : Scalar) (t : Tag) :
    s.RetiredWriting (s.put rd v t).retire rd ⟨true, t, v⟩ := by
  refine ⟨rfl, by simp, fun r h => ?_⟩
  simp [State.reg_put, h]

/-- Writing two different registers and retiring. -/
theorem State.retiredWritingTwo_put (s : State) {rd rd2 : RegIdx} (h : rd ≠ rd2) (v v2 : Scalar) (t t2 : Tag) :
    s.RetiredWritingTwo ((s.put rd v t).put rd2 v2 t2).retire rd ⟨true, t, v⟩ rd2 ⟨true, t2, v2⟩ := by
  refine ⟨rfl, by simp [State.reg_put, h], by simp, fun r h1 h2 => ?_⟩
  simp [State.reg_put, h1, h2]

/-- All that running a command can do: the fault entry with ILLEGAL, the fault entry of a failing operand check, or its
effect and retirement. -/
theorem runCommand_cases {α : Type} (legal : Bool) (ops : Except OperandFault α) (eff : α → State → State) (s : State) :
    (legal = false ∧ runCommand legal ops eff s = .next (s.raiseFault .illegal false)) ∨
    (∃ f, legal = true ∧ ops = .error f ∧ runCommand legal ops eff s = .next (s.raiseFault f.cause f.opnd)) ∨
    (∃ a, legal = true ∧ ops = .ok a ∧ runCommand legal ops eff s = .next (eff a s).retire) := by
  cases legal with
  | false => exact .inl ⟨rfl, rfl⟩
  | true =>
    cases ops with
    | error f => exact .inr (.inl ⟨f, rfl, rfl, rfl⟩)
    | ok a => exact .inr (.inr ⟨a, rfl, rfl, rfl⟩)

/-- A command with one operand runs, given that it is legal and its source can be read. -/
theorem runCommand_one {legal : Bool} {s : State} {r : RegIdx} {t : Tag} (eff : Scalar → State → State)
    (hl : legal = true) (h : s.Holds r t) :
    runCommand legal (s.readOne r t) eff s = .next (eff (s.reg r).data s).retire := by
  rw [s.readOne_eq, firstFailure_one_none.mpr h, hl]; rfl

/-- A command with two operands runs, given that it is legal and its sources can be read. -/
theorem runCommand_two {legal : Bool} {s : State} {r₁ r₂ : RegIdx} {t : Tag}
    (eff : Scalar × Scalar → State → State) (hl : legal = true) (h₁ : s.Holds r₁ t) (h₂ : s.Holds r₂ t) :
    runCommand legal (s.readTwo r₁ r₂ t) eff s = .next (eff ((s.reg r₁).data, (s.reg r₂).data) s).retire := by
  rw [s.readTwo_eq, firstFailure_two_none.mpr ⟨h₁, h₂⟩, hl]; rfl

end Sys2Proof.Machine
end

