-- ==== Sys2Proof/Laws/Engine.lean ====
section
/-! SUPPORT. What a command, the engine, the bus and the step can do: one inversion lemma each. -/

namespace Sys2Proof.Machine

/-- An operand check fails with UNINIT or TAG. -/
theorem State.readOne_error {s : State} {r : RegIdx} {t : Tag} {f : OperandFault}
    (h : s.readOne r t = .error f) : f.cause = .uninit ∨ f.cause = .tag := by
  rw [s.readOne_eq] at h
  split at h
  · next c o hf => cases h; exact firstFailure_cause hf
  · cases h

/-- An operand check fails with UNINIT or TAG. -/
theorem State.readTwo_error {s : State} {r₁ r₂ : RegIdx} {t : Tag} {f : OperandFault}
    (h : s.readTwo r₁ r₂ t = .error f) : f.cause = .uninit ∨ f.cause = .tag := by
  rw [s.readTwo_eq] at h
  split at h
  · next c o hf => cases h; exact firstFailure_cause hf
  · cases h

/-- What any command does, in any state: it answers a next state, with the fault entry (ILLEGAL with FOPND 0, UNINIT or
TAG) or retired (R220, R223). -/
def FaultsOrRetires (s : State) (out : Host.Outcome State Fault Refusal) : Prop :=
  (∃ c o, c ≠ .none ∧ (c = .illegal → o = false) ∧ out = .next (s.raiseFault c o)) ∨
  ∃ s', out = .next s' ∧ s.Retired s'

/-- Running a command faults or retires, if its operand checks fail with UNINIT or TAG and its effect changes only the
register file. -/
theorem runCommand_faultsOrRetires {α : Type} {legal : Bool} {ops : Except OperandFault α}
    {eff : α → State → State} {s : State}
    (herr : ∀ f, ops = .error f → f.cause = .uninit ∨ f.cause = .tag)
    (heff : ∀ a, s.Retired (eff a s).retire) : FaultsOrRetires s (runCommand legal ops eff s) := by
  rcases runCommand_cases legal ops eff s with ⟨-, h⟩ | ⟨f, -, hf, h⟩ | ⟨a, -, -, h⟩
  · exact .inl ⟨.illegal, false, by simp, by simp, h⟩
  · refine .inl ⟨f.cause, f.opnd, ?_, ?_, h⟩ <;> rcases herr f hf with e | e <;> simp [e]
  · exact .inr ⟨_, h, heff a⟩

/-- What a command can do. -/
theorem exec_faultsOrRetires (i : Instr) (s : State) : FaultsOrRetires s (exec i s) := by
  cases i <;>
  · simp only [exec, execWrap, execUnwrap, execBcast, execAny, execPopc, execSplit, execMerge, execHalve, execUnion,
      execSquash, execSumw2, execSumw, execAdd, execMinhwd, execMaxhwd, execTox, execFromx, execCmpeq, execCmpltu]
    apply runCommand_faultsOrRetires
    · intro f h
      first
      | exact State.readOne_error h
      | exact State.readTwo_error h
    · intro a
      rfl

/-- What executing a word can do (R95, R224). -/
theorem State.executeWord_faultsOrRetires (s : State) (w : Word) : FaultsOrRetires s (s.executeWord w) := by
  unfold State.executeWord
  split
  · exact exec_faultsOrRetires _ s
  · exact .inl ⟨.illegal, false, by simp, by simp, rfl⟩

/-- What the engine's move can do: execute the word it has started, start the head of the queue, or nothing. -/
theorem State.engineMove_cases (s : State) :
    (∃ w, s.executing = some w ∧ s.engineMove = s.executeWord w) ∨
    (∃ w rest, s.executing = none ∧ s.queue = w :: rest ∧
      s.engineMove = .next { s with queue := rest, executing := some w }) ∨
    (s.executing = none ∧ s.queue = [] ∧ s.engineMove = .next s) := by
  unfold State.engineMove
  cases h : s.executing with
  | some w => exact .inl ⟨w, rfl, rfl⟩
  | none =>
    cases hq : s.queue with
    | nil => exact .inr (.inr ⟨rfl, rfl, rfl⟩)
    | cons w rest => exact .inr (.inl ⟨w, rest, rfl, rfl, rfl⟩)

/-- What a host access can do: wait, complete with the state unchanged, or complete a CMD, CTRL, DATA or TAG write. -/
theorem State.hostAccess_cases (s : State) (a : HostAccess) :
    s.hostAccess a = .waits ∨ (∃ r, s.hostAccess a = .completes r s) ∨
    ∃ bits addr v off, a = .write bits addr v ∧ windowOffset addr = some off ∧
      (selectPort bits off = some .cmd ∧
          (s.fault = true ∧ s.hostAccess a = .completes .writeDone { s with drop := true } ∨
            s.fault = false ∧ s.queue.length < Config.qdepth ∧
              s.hostAccess a = .completes .writeDone { s with queue := s.queue ++ [v] }) ∨
        selectPort bits off = some .ctrl ∧ s.hostAccess a = .completes .writeDone (s.writeCtrl v) ∨
        (∃ i j, selectPort bits off = some (.data i j) ∧ s.idle = true ∧
          s.hostAccess a = .completes .writeDone (s.writeData i j v)) ∨
        ∃ i, selectPort bits off = some (.tag i) ∧ s.idle = true ∧
          s.hostAccess a = .completes .writeDone (s.writeTag i v)) := by
  cases a with
  | read bits addr =>
    simp only [State.hostAccess]
    split
    · exact .inr (.inl ⟨_, rfl⟩)
    · unfold State.hostRead
      split
      · exact .inr (.inl ⟨_, rfl⟩)
      · split
        · exact .inr (.inl ⟨_, rfl⟩)
        · split
          · exact .inl rfl
          · exact .inr (.inl ⟨_, rfl⟩)
  | write bits addr v =>
    simp only [State.hostAccess]
    cases hw : windowOffset addr with
    | none => exact .inr (.inl ⟨_, rfl⟩)
    | some off =>
      simp only [State.hostWrite]
      cases hp : selectPort bits off with
      | none => exact .inr (.inl ⟨_, rfl⟩)
      | some p =>
        cases p with
        | id | cfg | status | fcmd | fidx | retired | sync => exact .inr (.inl ⟨_, rfl⟩)
        | cmd =>
          cases hf : s.fault with
          | true =>
            exact .inr (.inr ⟨bits, addr, v, off, rfl, hw, .inl ⟨hp, .inl ⟨rfl, by simp [State.offerCommand, hf]⟩⟩⟩)
          | false =>
            by_cases hq : s.queue.length < Config.qdepth
            · exact .inr (.inr ⟨bits, addr, v, off, rfl, hw,
                .inl ⟨hp, .inr ⟨rfl, hq, by simp [State.offerCommand, hf, hq]⟩⟩⟩)
            · exact .inl (by simp [State.offerCommand, hf, hq])
        | ctrl => exact .inr (.inr ⟨bits, addr, v, off, rfl, hw, .inr (.inl ⟨hp, rfl⟩)⟩)
        | data i j =>
          cases hi : s.idle with
          | true => exact .inr (.inr ⟨bits, addr, v, off, rfl, hw, .inr (.inr (.inl ⟨i, j, hp, rfl, by simp⟩))⟩)
          | false => exact .inl (by simp)
        | tag i =>
          cases hi : s.idle with
          | true => exact .inr (.inr ⟨bits, addr, v, off, rfl, hw, .inr (.inr (.inr ⟨i, hp, rfl, by simp⟩))⟩)
          | false => exact .inl (by simp)

/-- The agents that can move are those the list of movers holds. -/
theorem State.mem_movers {s : State} {a : Agent} : a ∈ s.movers ↔ s.canMove a = true := by
  unfold State.movers
  cases a <;> simp

/-- Whether a host access waits depends only on the queue, the executing word and FAULT (R68, R69). -/
theorem State.hostAccess_waits_congr {s t : State} (hq : t.queue = s.queue) (he : t.executing = s.executing)
    (hf : t.fault = s.fault) (a : HostAccess) : t.hostAccess a = .waits ↔ s.hostAccess a = .waits := by
  have hi : t.idle = s.idle := by unfold State.idle; rw [hq, he]
  cases a with
  | read bits addr =>
    simp only [State.hostAccess]
    cases windowOffset addr with
    | none => simp
    | some off =>
      simp only [State.hostRead]
      cases selectPort bits off with
      | none => simp
      | some p => cases p <;> simp [State.readPort, Port.waitsForIdle, hi]
  | write bits addr v =>
    simp only [State.hostAccess]
    cases windowOffset addr with
    | none => simp
    | some off =>
      simp only [State.hostWrite]
      cases selectPort bits off with
      | none => simp
      | some p =>
        cases p with
        | id | cfg | status | fcmd | fidx | retired | sync | ctrl => simp
        | cmd =>
          simp only [State.offerCommand, hf, hq]
          split
          · simp
          · split <;> simp
        | data i j => simp only [hi]; split <;> simp
        | tag i => simp only [hi]; split <;> simp

/-- When the bus can move. -/
theorem State.busCanMove_iff (s : State) :
    s.busCanMove = true ↔
      (∃ a, s.waiting = some a ∧ s.hostAccess a ≠ .waits) ∨
      (s.waiting = none ∧ ∃ a rest, s.inputs = .access a :: rest) := by
  unfold State.busCanMove
  cases hw : s.waiting with
  | some a => cases hh : s.hostAccess a <;> simp [hh]
  | none =>
    cases s.inputs with
    | nil => simp
    | cons x rest => cases x <;> simp

/-- When the reset input can move. -/
theorem State.resetCanMove_iff (s : State) : s.resetCanMove = true ↔ ∃ rest, s.inputs = .reset :: rest := by
  unfold State.resetCanMove
  cases s.inputs with
  | nil => simp
  | cons x rest => cases x <;> simp

/-- When the engine can move (R228, R267). -/
theorem State.engineCanMove_iff (s : State) : s.engineCanMove = true ↔ s.fault = false ∧ s.idle = false := by
  simp [State.engineCanMove]

/-- Drawing a free choice changes nothing but the choice: the same agents can move. -/
@[simp] theorem State.canMove_draw (s : State) (a : Agent) : s.draw.canMove a = s.canMove a := by
  cases a with
  | engine => rfl
  | reset => rfl
  | bus =>
    rw [Bool.eq_iff_iff]
    simp only [State.canMove, State.busCanMove_iff, State.draw_waiting, State.draw_inputs, ne_eq,
      State.hostAccess_waits_congr (State.draw_queue s) (State.draw_executing s) (State.draw_fault s)]

/-- What a step can do: nothing, where no agent can move; else the move of an agent that can move, on the state after
the arbitration. -/
theorem step_cases (s : State) :
    (s.movers = [] ∧ step s = .next s) ∨
    ∃ a, s.canMove a = true ∧ (s.movers = [a] ∨ s.pick = a ∨ s.canMove s.pick = false) ∧
      step s = s.arbitrated.move a := by
  unfold step State.advance State.arbitrated
  cases hm : s.movers with
  | nil => exact .inl ⟨rfl, rfl⟩
  | cons a l =>
    have ha : s.canMove a = true := State.mem_movers.mp (by simp [hm])
    cases l with
    | nil => exact .inr ⟨a, ha, .inl rfl, rfl⟩
    | cons b c =>
      by_cases hp : s.canMove s.pick = true
      · exact .inr ⟨s.pick, hp, .inr (.inl rfl), by simp [hp]⟩
      · exact .inr ⟨a, ha, .inr (.inr (by simpa using hp)), by simp [hp]⟩

/-- The step where it is the engine's move. -/
theorem step_engine {s : State} (h : s.EngineToMove) : step s = s.arbitrated.engineMove := by
  obtain ⟨he, h⟩ := h
  unfold step State.advance State.arbitrated
  have hm := State.mem_movers.mpr he
  cases e : s.movers with
  | nil => rw [e] at hm; simp at hm
  | cons a l =>
    rw [e] at hm h
    have ha : a = .engine := by
      simp only [State.movers, List.filter, he] at e
      exact (List.cons.inj e).1.symm
    subst ha
    cases l with
    | nil => rfl
    | cons b c =>
      rcases h with h | h | hp
      · simp at h
      · simp only [h, he, if_true]
        rfl
      · simp only [hp]
        rfl

/-- The step where it is the bus's move. -/
theorem step_bus {s : State} (h : s.BusToMove) : step s = .next s.arbitrated.busMove := by
  obtain ⟨hb, h⟩ := h
  unfold step State.advance State.arbitrated
  have hm := State.mem_movers.mpr hb
  cases e : s.movers with
  | nil => rw [e] at hm; simp at hm
  | cons a l =>
    rw [e] at hm h
    cases l with
    | nil =>
      simp only [List.mem_singleton] at hm
      subst hm
      rfl
    | cons b c =>
      rcases h with h | h | ⟨hp, he⟩
      · simp at h
      · simp only [h, hb, if_true]
        rfl
      · have ha : a = .bus := by
          simp only [State.movers, List.filter, he, hb] at e
          exact (List.cons.inj e).1.symm
        simp only [hp, ha]
        rfl

/-- Arbitration changes only the model's own fields `pick` and `draws`. -/
theorem State.arbitrated_cases (s : State) : s.arbitrated = s ∨ s.arbitrated = s.draw := by
  unfold State.arbitrated
  split
  · exact .inl rfl
  · exact .inl rfl
  · exact .inr rfl

@[simp] theorem State.arbitrated_regs (s : State) : s.arbitrated.regs = s.regs := by
  rcases s.arbitrated_cases with e | e <;> simp [e]

@[simp] theorem State.arbitrated_queue (s : State) : s.arbitrated.queue = s.queue := by
  rcases s.arbitrated_cases with e | e <;> simp [e]

@[simp] theorem State.arbitrated_executing (s : State) : s.arbitrated.executing = s.executing := by
  rcases s.arbitrated_cases with e | e <;> simp [e]

@[simp] theorem State.arbitrated_retired (s : State) : s.arbitrated.retired = s.retired := by
  rcases s.arbitrated_cases with e | e <;> simp [e]

@[simp] theorem State.arbitrated_fault (s : State) : s.arbitrated.fault = s.fault := by
  rcases s.arbitrated_cases with e | e <;> simp [e]

@[simp] theorem State.arbitrated_drop (s : State) : s.arbitrated.drop = s.drop := by
  rcases s.arbitrated_cases with e | e <;> simp [e]

@[simp] theorem State.arbitrated_fcause (s : State) : s.arbitrated.fcause = s.fcause := by
  rcases s.arbitrated_cases with e | e <;> simp [e]

@[simp] theorem State.arbitrated_fopnd (s : State) : s.arbitrated.fopnd = s.fopnd := by
  rcases s.arbitrated_cases with e | e <;> simp [e]

@[simp] theorem State.arbitrated_fie (s : State) : s.arbitrated.fie = s.fie := by
  rcases s.arbitrated_cases with e | e <;> simp [e]

@[simp] theorem State.arbitrated_fcmd (s : State) : s.arbitrated.fcmd = s.fcmd := by
  rcases s.arbitrated_cases with e | e <;> simp [e]

@[simp] theorem State.arbitrated_fidx (s : State) : s.arbitrated.fidx = s.fidx := by
  rcases s.arbitrated_cases with e | e <;> simp [e]

@[simp] theorem State.arbitrated_waiting (s : State) : s.arbitrated.waiting = s.waiting := by
  rcases s.arbitrated_cases with e | e <;> simp [e]

@[simp] theorem State.arbitrated_inputs (s : State) : s.arbitrated.inputs = s.inputs := by
  rcases s.arbitrated_cases with e | e <;> simp [e]

@[simp] theorem State.arbitrated_responses (s : State) : s.arbitrated.responses = s.responses := by
  rcases s.arbitrated_cases with e | e <;> simp [e]

@[simp] theorem State.canMove_arbitrated (s : State) (a : Agent) : s.arbitrated.canMove a = s.canMove a := by
  rcases s.arbitrated_cases with e | e <;> simp [e]

/-- What the bus's move can do: try the waiting access, present the next one, or nothing. -/
theorem State.busMove_cases (s : State) :
    (∃ a, s.waiting = some a ∧ s.busMove = s.tryAccess a) ∨
    (∃ a rest, s.waiting = none ∧ s.inputs = .access a :: rest ∧ s.busMove = { s with inputs := rest }.tryAccess a) ∨
    s.busMove = s := by
  unfold State.busMove
  cases hw : s.waiting with
  | some a => exact .inl ⟨a, rfl, rfl⟩
  | none =>
    cases hi : s.inputs with
    | nil => exact .inr (.inr rfl)
    | cons x rest =>
      cases x with
      | access a => exact .inr (.inl ⟨a, rest, rfl, rfl, rfl⟩)
      | reset => exact .inr (.inr rfl)

/-- What the reset input's move can do: reset, or nothing. -/
theorem State.resetMove_cases (s : State) :
    (∃ rest, s.inputs = .reset :: rest ∧ s.resetMove = { s with inputs := rest }.applyReset) ∨ s.resetMove = s := by
  unfold State.resetMove
  split
  · next rest h => exact .inl ⟨rest, h, rfl⟩
  · exact .inr rfl
  · exact .inr rfl

/-- A run of one step more. -/
theorem run_succ_of_next {M : Host.Core} {s s' : M.State} (n : Nat) (h : M.step s = .next s') :
    M.run (n + 1) s = M.run n s' := by
  simp only [Host.Core.run, h]

/-- A run of one step more, for this machine. -/
theorem core_run_succ {s s' : State} (n : Nat) (h : step s = .next s') :
    Sys2Proof.core.run (n + 1) s = Sys2Proof.core.run n s' :=
  run_succ_of_next (M := Sys2Proof.core) n h

end Sys2Proof.Machine
end

