-- ==== Sys2Proof/Laws/PerInstr.lean ====
section
/-! SUPPORT. The families of facts about every command as syntax, one lemma per constructor. -/

namespace Sys2Proof.Laws

open Sys2Proof Sys2Proof.Machine

/-- The word of a command, whether legal or not, has the op of a row of R94, 0 in bits 3:0 and 0 in every register field
that row does not use. -/
def TableRow.Statement (i : Instr) : Prop :=
  ∃ row, row ∈ opTable ∧ (opField (encode i)).toNat = row.op ∧ zField (encode i) = 0#4 ∧
    (row.usesRs2 = false → rs2Field (encode i) = 0#4) ∧ (row.usesRd2 = false → rd2Field (encode i) = 0#4)

/-- A word of format C built from a row's op, and from 0 where the row uses no field, meets the row. -/
theorem tableRow_of_formatC {i : Instr} (row : OpRow) (op : BitVec 8) (t rd rs1 rs2 rd2 : BitVec 4)
    (hi : encode i = formatC op t rd rs1 rs2 rd2) (hr : row ∈ opTable) (ho : op.toNat = row.op)
    (h2 : row.usesRs2 = false → rs2 = 0#4) (hd : row.usesRd2 = false → rd2 = 0#4) : TableRow.Statement i := by
  rw [TableRow.Statement, hi]
  exact ⟨row, hr, by simpa using ho, by simp, fun h => by simpa using h2 h, fun h => by simpa using hd h⟩

theorem TableRow.wrap (t : Tag) (rd rs1 : RegIdx) : TableRow.Statement (.wrap t rd rs1) :=
  tableRow_of_formatC ⟨0x01, 0, 7, false, false⟩ 0x01#8 _ _ _ _ _ rfl (by decide) rfl (by simp) (by simp)

theorem TableRow.unwrap (t : Tag) (rd rs1 : RegIdx) : TableRow.Statement (.unwrap t rd rs1) :=
  tableRow_of_formatC ⟨0x02, 0, 14, false, false⟩ 0x02#8 _ _ _ _ _ rfl (by decide) rfl (by simp) (by simp)

theorem TableRow.bcast (t : Tag) (rd rs1 : RegIdx) : TableRow.Statement (.bcast t rd rs1) :=
  tableRow_of_formatC ⟨0x10, 0, 7, false, false⟩ 0x10#8 _ _ _ _ _ rfl (by decide) rfl (by simp) (by simp)

theorem TableRow.any (t : Tag) (rd rs1 : RegIdx) : TableRow.Statement (.any t rd rs1) :=
  tableRow_of_formatC ⟨0x11, 0, 7, false, false⟩ 0x11#8 _ _ _ _ _ rfl (by decide) rfl (by simp) (by simp)

theorem TableRow.popc (t : Tag) (rd rs1 : RegIdx) : TableRow.Statement (.popc t rd rs1) :=
  tableRow_of_formatC ⟨0x12, 0, 7, false, false⟩ 0x12#8 _ _ _ _ _ rfl (by decide) rfl (by simp) (by simp)

theorem TableRow.split (t : Tag) (rd rd2 rs1 : RegIdx) : TableRow.Statement (.split t rd rd2 rs1) :=
  tableRow_of_formatC ⟨0x20, 0, 6, false, true⟩ 0x20#8 _ _ _ _ _ rfl (by decide) rfl (by simp) (by simp)

theorem TableRow.merge (t : Tag) (rd rs1 rs2 : RegIdx) : TableRow.Statement (.merge t rd rs1 rs2) :=
  tableRow_of_formatC ⟨0x21, 0, 6, true, false⟩ 0x21#8 _ _ _ _ _ rfl (by decide) rfl (by simp) (by simp)

theorem TableRow.halve (t : Tag) (rd rd2 rs1 : RegIdx) : TableRow.Statement (.halve t rd rd2 rs1) :=
  tableRow_of_formatC ⟨0x22, 0, 6, false, true⟩ 0x22#8 _ _ _ _ _ rfl (by decide) rfl (by simp) (by simp)

theorem TableRow.union (t : Tag) (rd rs1 rs2 : RegIdx) : TableRow.Statement (.union t rd rs1 rs2) :=
  tableRow_of_formatC ⟨0x23, 0, 6, true, false⟩ 0x23#8 _ _ _ _ _ rfl (by decide) rfl (by simp) (by simp)

theorem TableRow.squash (t : Tag) (rd rs1 : RegIdx) : TableRow.Statement (.squash t rd rs1) :=
  tableRow_of_formatC ⟨0x24, 0, 6, false, false⟩ 0x24#8 _ _ _ _ _ rfl (by decide) rfl (by simp) (by simp)

theorem TableRow.sumw2 (t : Tag) (rd rs1 : RegIdx) : TableRow.Statement (.sumw2 t rd rs1) :=
  tableRow_of_formatC ⟨0x30, 0, 6, false, false⟩ 0x30#8 _ _ _ _ _ rfl (by decide) rfl (by simp) (by simp)

theorem TableRow.sumw (t : Tag) (rd rs1 : RegIdx) : TableRow.Statement (.sumw t rd rs1) :=
  tableRow_of_formatC ⟨0x31, 0, 7, false, false⟩ 0x31#8 _ _ _ _ _ rfl (by decide) rfl (by simp) (by simp)

theorem TableRow.add (t : Tag) (rd rs1 rs2 : RegIdx) : TableRow.Statement (.add t rd rs1 rs2) :=
  tableRow_of_formatC ⟨0x32, 0, 7, true, false⟩ 0x32#8 _ _ _ _ _ rfl (by decide) rfl (by simp) (by simp)

theorem TableRow.minhwd (t : Tag) (rd rs1 rs2 : RegIdx) : TableRow.Statement (.minhwd t rd rs1 rs2) :=
  tableRow_of_formatC ⟨0x40, 0, 7, true, false⟩ 0x40#8 _ _ _ _ _ rfl (by decide) rfl (by simp) (by simp)

theorem TableRow.maxhwd (t : Tag) (rd rs1 rs2 : RegIdx) : TableRow.Statement (.maxhwd t rd rs1 rs2) :=
  tableRow_of_formatC ⟨0x41, 0, 7, true, false⟩ 0x41#8 _ _ _ _ _ rfl (by decide) rfl (by simp) (by simp)

theorem TableRow.tox (t : Tag) (rd rs1 : RegIdx) : TableRow.Statement (.tox t rd rs1) :=
  tableRow_of_formatC ⟨0x50, 8, 14, false, false⟩ 0x50#8 _ _ _ _ _ rfl (by decide) rfl (by simp) (by simp)

theorem TableRow.fromx (t : Tag) (rd rs1 : RegIdx) : TableRow.Statement (.fromx t rd rs1) :=
  tableRow_of_formatC ⟨0x51, 8, 14, false, false⟩ 0x51#8 _ _ _ _ _ rfl (by decide) rfl (by simp) (by simp)

theorem TableRow.cmpeq (t : Tag) (rd rs1 rs2 : RegIdx) : TableRow.Statement (.cmpeq t rd rs1 rs2) :=
  tableRow_of_formatC ⟨0x52, 0, 15, true, false⟩ 0x52#8 _ _ _ _ _ rfl (by decide) rfl (by simp) (by simp)

theorem TableRow.cmpltu (t : Tag) (rd rs1 rs2 : RegIdx) : TableRow.Statement (.cmpltu t rd rs1 rs2) :=
  tableRow_of_formatC ⟨0x53, 0, 15, true, false⟩ 0x53#8 _ _ _ _ _ rfl (by decide) rfl (by simp) (by simp)

end Sys2Proof.Laws
end

