-- ==== Sys2Proof/Laws/Values.lean ====
section
/-! SUPPORT. What the values of the commands hold, lane by lane: SPLIT, MERGE, spread and compact, UNION, SUMW2, and the
sums and counts of SUMW and POPC. -/

namespace Sys2Proof.Machine

/-- A number below 2^K with the bits of a lane is that lane. -/
theorem lane_eq_of_bits {K n : Nat} {v : Scalar} {i : Nat} (hn : n < 2 ^ K)
    (h : ∀ b, b < K → v.getLsbD (K * i + b) = n.testBit b) : lane K v i = n := by
  apply Nat.eq_of_testBit_eq
  intro b
  rw [testBit_lane]
  by_cases hb : b < K
  · simp [hb, h b hb]
  · have : n < 2 ^ b := lt_of_lt_of_le hn (Nat.pow_le_pow_right (by norm_num) (by omega))
    simp [hb, Nat.testBit_lt_two_pow this]

/-- For K = 2^t with t <= 6: the number n of 2K-bit lanes, in the forms the rules use. -/
theorem laneCounts {t : Tag} (h : t.toNat ≤ 6) :
    ∃ n, 128 / (2 * 2 ^ t.toNat) = n ∧ 128 / laneWidth t = 2 * n ∧ laneWidth t * (2 * n) = 128 ∧
      64 / 2 ^ t.toNat = n := by
  unfold laneWidth
  generalize t.toNat = k at *
  interval_cases k <;> exact ⟨_, rfl, rfl, rfl, rfl⟩

/-- Shifting right by K moves the lanes down by one. -/
theorem lane_shiftRight (K : Nat) (v : Scalar) (i : Nat) : lane K (v >>> K) i = lane K v (i + 1) := by
  unfold lane
  rw [← BitVec.shiftRight_add]
  congr 3
  ring

/-- Shifting left by K moves the lanes up by one. -/
theorem lane_shiftLeft_succ (K : Nat) (v : Scalar) (i : Nat) (h : K * (i + 1) + K ≤ 128) :
    lane K (v <<< K) (i + 1) = lane K v i := by
  apply Nat.eq_of_testBit_eq
  intro b
  simp only [testBit_lane, BitVec.getLsbD_shiftLeft]
  by_cases hb : b < K
  · have h0 : K * (i + 1) = K * i + K := by ring
    rw [h0] at h ⊢
    simp only [hb, decide_true, Bool.true_and]
    rw [show K * i + K + b - K = K * i + b by omega]
    simp only [show K * i + K + b < 128 by omega, show ¬K * i + K + b < K by omega, decide_true, decide_false,
      Bool.not_false, Bool.true_and]
  · simp [hb]

/-- Shifting left by K leaves lane 0 empty. -/
theorem lane_shiftLeft_zero (K : Nat) (v : Scalar) : lane K (v <<< K) 0 = 0 := by
  apply Nat.eq_of_testBit_eq
  intro b
  simp only [testBit_lane, BitVec.getLsbD_shiftLeft]
  by_cases hb : b < K <;> simp [hb]

/-- A lane beyond the 128 bits is 0. -/
theorem lane_beyond (K : Nat) (v : Scalar) (i : Nat) (h : 128 ≤ K * i) : lane K v i = 0 := by
  unfold lane
  rw [BitVec.toNat_ushiftRight, Nat.shiftRight_eq_div_pow, Nat.div_eq_of_lt, Nat.zero_mod]
  exact lt_of_lt_of_le v.isLt (Nat.pow_le_pow_right (by norm_num) h)

/-- The lanes of an OR. -/
theorem lane_or (K : Nat) (u v : Scalar) (i : Nat) : lane K (u ||| v) i = lane K u i ||| lane K v i := by
  apply Nat.eq_of_testBit_eq
  intro b
  simp only [testBit_lane, Nat.testBit_or, BitVec.getLsbD_or]
  cases decide (b < K) <;> simp

/-- The low half of a 2K-bit lane. -/
theorem lane_double_mod (K : Nat) (v : Scalar) (j : Nat) : lane (2 * K) v j % 2 ^ K = lane K v (2 * j) := by
  rw [lane_double, Nat.add_mul_mod_self_left, Nat.mod_eq_of_lt (lane_lt ..)]

/-- SPLIT's rd: the odd-numbered lanes (R142). -/
theorem lane_splitHigh {t : Tag} (a : Scalar) (h : t.toNat ≤ 6) {j : Nat} (hj : j < 128 / (2 * 2 ^ t.toNat)) :
    lane (2 * laneWidth t) (splitHigh t a) j = lane (laneWidth t) a (2 * j + 1) := by
  obtain ⟨n, h1, h2, h3, -⟩ := laneCounts h
  have hz : lane (laneWidth t) (a &&& leftMask (maskLevel t)) (2 * j + 1 + 1) = 0 := by
    by_cases hh : 2 * j + 1 + 1 < 128 / laneWidth t
    · rw [lane_and_leftMask _ h hh, if_neg (by omega)]
    · apply lane_beyond
      rw [← h3]
      apply Nat.mul_le_mul_left
      omega
  rw [lane_double, splitHigh, lane_shiftRight, lane_shiftRight, lane_and_leftMask _ h (by omega), hz]
  simp

/-- SPLIT's rd2: the even-numbered lanes (R142). -/
theorem lane_splitLow {t : Tag} (a : Scalar) (h : t.toNat ≤ 6) {j : Nat} (hj : j < 128 / (2 * 2 ^ t.toNat)) :
    lane (2 * laneWidth t) (splitLow t a) j = lane (laneWidth t) a (2 * j) := by
  obtain ⟨n, h1, h2, h3, -⟩ := laneCounts h
  rw [lane_double, splitLow, lane_and_rightMask _ h (by omega), lane_and_rightMask _ h (by omega)]
  simp

/-- MERGE's odd-numbered lanes: the low halves of `hi` (R143). -/
theorem lane_mergeValue_odd {t : Tag} (hi lo : Scalar) (h : t.toNat ≤ 6) {j : Nat}
    (hj : j < 128 / (2 * 2 ^ t.toNat)) :
    lane (laneWidth t) (mergeValue t hi lo) (2 * j + 1) = lane (laneWidth t) hi (2 * j) := by
  obtain ⟨n, h1, h2, h3, -⟩ := laneCounts h
  have hf := lane_fits (show 2 * j + 1 < 128 / laneWidth t by omega)
  rw [mergeValue, lane_or, lane_shiftLeft_succ _ _ _ hf, lane_and_rightMask _ h (by omega),
    lane_and_rightMask _ h (by omega)]
  simp

/-- MERGE's even-numbered lanes: the low halves of `lo` (R143). -/
theorem lane_mergeValue_even {t : Tag} (hi lo : Scalar) (h : t.toNat ≤ 6) {j : Nat}
    (hj : j < 128 / (2 * 2 ^ t.toNat)) :
    lane (laneWidth t) (mergeValue t hi lo) (2 * j) = lane (laneWidth t) lo (2 * j) := by
  obtain ⟨n, h1, h2, h3, -⟩ := laneCounts h
  have hz : lane (laneWidth t) ((hi &&& rightMask (maskLevel t)) <<< laneWidth t) (2 * j) = 0 := by
    cases j with
    | zero => exact lane_shiftLeft_zero ..
    | succ j =>
      have hf := lane_fits (show 2 * j + 1 + 1 < 128 / laneWidth t by omega)
      rw [show 2 * (j + 1) = 2 * j + 1 + 1 by ring, lane_shiftLeft_succ _ _ _ hf,
        lane_and_rightMask _ h (by omega)]
      simp
  rw [mergeValue, lane_or, hz, lane_and_rightMask _ h (by omega)]
  simp

/-- The lanes of a half of a scalar, `off = K*n` bits from the bottom. -/
theorem lane_extract_half (K : Nat) (v : Scalar) (j n off : Nat) (hK : K * n = off) (h : K * j + K ≤ 64) :
    lane K ((v.extractLsb' off 64).setWidth 128) j = lane K v (n + j) := by
  apply Nat.eq_of_testBit_eq
  intro b
  simp only [testBit_lane, BitVec.getLsbD_setWidth, BitVec.getLsbD_extractLsb']
  by_cases hb : b < K
  · simp only [hb, show K * j + b < 128 by omega, show K * j + b < 64 by omega, decide_true, Bool.true_and]
    rw [Nat.mul_add, hK, Nat.add_assoc]
  · simp [hb]

/-- spread's lanes (R140). -/
theorem lane_spread {t : Tag} (h : BitVec 64) (ht : t.toNat ≤ 6) {j : Nat} (hj : j < 64 / 2 ^ t.toNat) :
    lane (2 * laneWidth t) (spread (laneWidth t) h) j = lane (laneWidth t) (h.setWidth 128) j := by
  obtain ⟨n, h1, h2, h3, h4⟩ := laneCounts ht
  have hj' : j < 64 / laneWidth t := hj
  have h5 : laneWidth t * (2 * n) = 2 * (laneWidth t * n) := by ring
  have h6 : laneWidth t * (j + 1) ≤ laneWidth t * n := Nat.mul_le_mul_left _ (by omega)
  rw [spread, lane_pack _ (by
    rw [show 2 * laneWidth t * j + 2 * laneWidth t = 2 * (laneWidth t * (j + 1)) by ring]; omega), if_pos hj']
  apply Nat.mod_eq_of_lt
  exact lt_of_lt_of_le (lane_lt ..) (Nat.pow_le_pow_right (by norm_num) (by omega))

/-- compact's lanes (R141). -/
theorem lane_compact {t : Tag} (y : Scalar) (ht : t.toNat ≤ 6) {j : Nat} (hj : j < 64 / 2 ^ t.toNat) :
    lane (laneWidth t) ((compact (laneWidth t) y).setWidth 128) j = lane (laneWidth t) y (2 * j) := by
  obtain ⟨n, h1, h2, h3, h4⟩ := laneCounts ht
  have hj' : j < 64 / laneWidth t := hj
  have h5 : laneWidth t * (2 * n) = 2 * (laneWidth t * n) := by ring
  have h6 : laneWidth t * (j + 1) ≤ laneWidth t * n := Nat.mul_le_mul_left _ (by omega)
  rw [Nat.mul_add] at h6
  have hw : ∀ p : Scalar, lane (laneWidth t) ((p.setWidth 64).setWidth 128) j = lane (laneWidth t) p j := by
    intro p
    apply Nat.eq_of_testBit_eq
    intro b
    simp only [testBit_lane, BitVec.getLsbD_setWidth]
    by_cases hb : b < laneWidth t
    · simp [hb, show laneWidth t * j + b < 128 by omega, show laneWidth t * j + b < 64 by omega]
    · simp [hb]
  rw [compact, hw, lane_pack _ (by omega), if_pos hj', Nat.mod_mod, lane_double_mod]

/-- UNION's lower lanes: `right` compacted (R145). -/
theorem lane_unionValue_low {t : Tag} (l r : Scalar) (ht : t.toNat ≤ 6) {j : Nat} (hj : j < 64 / 2 ^ t.toNat) :
    lane (laneWidth t) (unionValue (laneWidth t) l r) j = lane (laneWidth t) r (2 * j) := by
  rw [← lane_compact r ht hj]
  obtain ⟨n, h1, h2, h3, h4⟩ := laneCounts ht
  have h5 : laneWidth t * (2 * n) = 2 * (laneWidth t * n) := by ring
  have h6 : laneWidth t * (j + 1) ≤ laneWidth t * n := Nat.mul_le_mul_left _ (by omega)
  rw [Nat.mul_add] at h6
  apply Nat.eq_of_testBit_eq
  intro b
  simp only [unionValue, testBit_lane, BitVec.getLsbD_or, BitVec.getLsbD_shiftLeft]
  by_cases hb : b < laneWidth t
  · simp [hb, show laneWidth t * j + b < 64 by omega]
  · simp [hb]

/-- UNION's upper lanes: `left` compacted (R145). -/
theorem lane_unionValue_high {t : Tag} (l r : Scalar) (ht : t.toNat ≤ 6) {j : Nat} (hj : j < 64 / 2 ^ t.toNat) :
    lane (laneWidth t) (unionValue (laneWidth t) l r) (64 / 2 ^ t.toNat + j) = lane (laneWidth t) l (2 * j) := by
  rw [← lane_compact l ht hj]
  obtain ⟨n, h1, h2, h3, h4⟩ := laneCounts ht
  have h5 : laneWidth t * (2 * n) = 2 * (laneWidth t * n) := by ring
  have h6 : laneWidth t * (j + 1) ≤ laneWidth t * n := Nat.mul_le_mul_left _ (by omega)
  rw [Nat.mul_add] at h6
  apply Nat.eq_of_testBit_eq
  intro b
  simp only [unionValue, testBit_lane, BitVec.getLsbD_or, BitVec.getLsbD_shiftLeft]
  by_cases hb : b < laneWidth t
  · rw [h4, Nat.mul_add, show laneWidth t * n = 64 by omega]
    simp [hb, show 64 + laneWidth t * j + b < 128 by omega, show ¬64 + laneWidth t * j + b < 64 by omega,
      show 64 + laneWidth t * j + b - 64 = laneWidth t * j + b by omega, show laneWidth t * j + b < 128 by omega,
      BitVec.getLsbD_of_ge (compact (laneWidth t) r) (64 + laneWidth t * j + b) (by omega)]
  · simp [hb]

/-- One lane more of a number: its low part grows by the next lane. -/
theorem mod_pow_lane_succ (K : Nat) (v : Scalar) (i : Nat) :
    v.toNat % 2 ^ (K * (i + 1)) = v.toNat % 2 ^ (K * i) + 2 ^ (K * i) * lane K v i := by
  rw [lane, BitVec.toNat_ushiftRight, Nat.shiftRight_eq_div_pow, Nat.mul_add, Nat.mul_one, pow_add, Nat.mod_mul]

/-- Where no sum of two lanes overflows, no carry reaches lane i. -/
theorem no_carry {K : Nat} (u v : Scalar) (i : Nat) (h : ∀ j, j < i → lane K u j + lane K v j < 2 ^ K) :
    u.toNat % 2 ^ (K * i) + v.toNat % 2 ^ (K * i) < 2 ^ (K * i) := by
  induction i with
  | zero => simp [Nat.mod_one]
  | succ i ih =>
    have hlow := ih (fun j hj => h j (by omega))
    have hi := h i (by omega)
    rw [mod_pow_lane_succ, mod_pow_lane_succ, show 2 ^ (K * (i + 1)) = 2 ^ (K * i) * 2 ^ K by
      rw [Nat.mul_add, Nat.mul_one, pow_add]]
    calc _ = u.toNat % 2 ^ (K * i) + v.toNat % 2 ^ (K * i) + 2 ^ (K * i) * (lane K u i + lane K v i) := by ring
      _ < 2 ^ (K * i) + 2 ^ (K * i) * (lane K u i + lane K v i) := by omega
      _ = 2 ^ (K * i) * (lane K u i + lane K v i + 1) := by ring
      _ ≤ _ := Nat.mul_le_mul_left _ hi

/-- A 128-bit sum is lane-wise where no sum of two lanes up to lane i overflows (R160, R162). -/
theorem lane_add {K : Nat} (u v : Scalar) (i : Nat) (hi : K * i + K ≤ 128)
    (h : ∀ j, j ≤ i → lane K u j + lane K v j < 2 ^ K) : lane K (u + v) i = lane K u i + lane K v i := by
  have hc := no_carry u v i (fun j hj => h j (by omega))
  have hl := h i le_rfl
  have hd : (2 : Nat) ^ 128 = 2 ^ (K * i) * 2 ^ (128 - K * i) := by rw [← pow_add]; congr 1; omega
  have e1 : lane K (u + v) i = (u.toNat + v.toNat) / 2 ^ (K * i) % 2 ^ K := by
    rw [lane, BitVec.toNat_ushiftRight, Nat.shiftRight_eq_div_pow, BitVec.toNat_add, hd,
      Nat.mod_mul_right_div_self, Nat.mod_mod_of_dvd _ (pow_dvd_pow 2 (by omega))]
  have e2 : (u.toNat + v.toNat) / 2 ^ (K * i) = u.toNat / 2 ^ (K * i) + v.toNat / 2 ^ (K * i) := by
    rw [Nat.add_div (by positivity), if_neg (by omega), Nat.add_zero]
  rw [e1, e2, Nat.add_mod]
  simp only [lane, BitVec.toNat_ushiftRight, Nat.shiftRight_eq_div_pow] at *
  exact Nat.mod_eq_of_lt hl

/-- Two K-bit numbers add up to less than 2^(2K). -/
theorem add_lt_double_width {K : Nat} (hK : 0 < K) {a b : Nat} (ha : a < 2 ^ K) (hb : b < 2 ^ K) :
    a + b < 2 ^ (2 * K) := by
  have h2 : 2 ^ 1 ≤ 2 ^ K := Nat.pow_le_pow_right (by norm_num) hK
  rw [two_mul, pow_add]
  nlinarith

/-- SUMW2's lanes: the sums of adjacent lanes, with no carry between them (R160). -/
theorem lane_sumPairs {t : Tag} (a : Scalar) (h : t.toNat ≤ 6) {j : Nat} (hj : j < 128 / (2 * 2 ^ t.toNat)) :
    lane (2 * laneWidth t) (sumPairs t a) j =
      lane (laneWidth t) a (2 * j) + lane (laneWidth t) a (2 * j + 1) := by
  have hb : ∀ k, k ≤ j → lane (2 * laneWidth t) (splitHigh t a) k + lane (2 * laneWidth t) (splitLow t a) k <
      2 ^ (2 * laneWidth t) := by
    intro k hk
    rw [lane_splitHigh a h (by omega), lane_splitLow a h (by omega)]
    exact add_lt_double_width (laneWidth_pos t) (lane_lt ..) (lane_lt ..)
  have hf : 2 * laneWidth t * j + 2 * laneWidth t ≤ 128 := lane_fits hj
  rw [show sumPairs t a = splitHigh t a + splitLow t a from rfl, lane_add _ _ _ hf hb, lane_splitHigh a h hj,
    lane_splitLow a h hj, Nat.add_comm]

/-- A sum over indices as a sum of a list. -/
theorem sumUpTo_eq (n : Nat) (f : Nat → Nat) : sumUpTo n f = ((List.range n).map f).sum := by
  induction n with
  | zero => rfl
  | succ n ih => rw [sumUpTo, ih, List.range_succ, List.map_append, List.sum_append]; simp

/-- The population count as a count of positions (00_scope.md section 5). -/
theorem popcount_eq (v : Scalar) : popcount v = (List.range 128).countP (fun p => v.getLsbD p) := by
  rw [popcount, sumUpTo_eq]
  generalize List.range 128 = l
  induction l with
  | nil => rfl
  | cons x xs ih =>
    simp only [List.map_cons, List.sum_cons, ih, List.countP_cons]
    cases v.getLsbD x <;> simp [Nat.add_comm]

/-- A population count is at most 128 (R124). -/
theorem popcount_le (v : Scalar) : popcount v ≤ 128 := by
  rw [popcount_eq]
  exact List.countP_le_length.trans (by simp)

/-- The sum of the lower lanes is at most the number they make. -/
theorem sum_lanes_le (K : Nat) (v : Scalar) (n : Nat) : sumUpTo n (lane K v) ≤ v.toNat % 2 ^ (K * n) := by
  induction n with
  | zero => simp [sumUpTo]
  | succ n ih =>
    rw [mod_pow_lane_succ, sumUpTo]
    have : 0 < 2 ^ (K * n) := by positivity
    nlinarith

/-- A sum of lanes never overflows (R161). -/
theorem sum_lanes_lt (K : Nat) (v : Scalar) (n : Nat) : sumUpTo n (lane K v) < 2 ^ 128 :=
  lt_of_le_of_lt ((sum_lanes_le K v n).trans (Nat.mod_le ..)) v.isLt

end Sys2Proof.Machine
end

