-- ==== Sys2Proof/Tests/Slice0.lean ====
section
/-! SUPPORT. Tests: each check of WellFormed refuses an ill-formed term; words written out from the spec decode; single
steps of each command with the values of 95_test_vectors.md; faults and host accesses; and, for each statement with
hypotheses, a witness (`wit_<Name>`) that meets them. Every expected value is the spec's, not the model's. -/

namespace Sys2Proof.Tests

open Sys2Proof Sys2Proof.Machine

set_option Elab.async false

-- ==== WellFormed (R94, R95) ====

theorem test_wf_lane_tag : (Instr.wrap 8 1 0).wellFormed = false := by decide
theorem test_wf_unwrap_raw : (Instr.unwrap 15 1 0).wellFormed = false := by decide
theorem test_wf_narrow_tag : (Instr.split 7 2 3 1).wellFormed = false := by decide
theorem test_wf_overflow_tag_low : (Instr.tox 7 1 2).wellFormed = false := by decide
theorem test_wf_overflow_tag_raw : (Instr.fromx 15 1 2).wellFormed = false := by decide
theorem test_wf_same_destination_split : (Instr.split 0 2 2 1).wellFormed = false := by decide
theorem test_wf_same_destination_halve : (Instr.halve 0 2 2 1).wellFormed = false := by decide

-- ==== Decoding (30_encoding.md R91, R94; words of 30_encoding.md and 95_test_vectors.md) ====

theorem test_decode_wrap : decodeTableWord 32 0x01010000 = some (.wrap 0 1 0) := by decide
theorem test_decode_unwrap : decodeTableWord 32 0x02721000 = some (.unwrap 7 2 1) := by decide
theorem test_decode_bcast : decodeTableWord 32 0x10240000 = some (.bcast 2 4 0) := by decide
theorem test_decode_any : decodeTableWord 32 0x11000000 = some (.any 0 0 0) := by decide
theorem test_decode_popc : decodeTableWord 32 0x12031000 = some (.popc 0 3 1) := by decide
theorem test_decode_split : decodeTableWord 32 0x20021030 = some (.split 0 2 3 1) := by decide
theorem test_decode_merge : decodeTableWord 32 0x21242300 = some (.merge 2 4 2 3) := by decide
theorem test_decode_halve : decodeTableWord 32 0x22251060 = some (.halve 2 5 6 1) := by decide
theorem test_decode_union : decodeTableWord 32 0x23275600 = some (.union 2 7 5 6) := by decide
theorem test_decode_squash : decodeTableWord 32 0x242A2000 = some (.squash 2 10 2) := by decide
theorem test_decode_sumw2 : decodeTableWord 32 0x30611000 = some (.sumw2 6 1 1) := by decide
theorem test_decode_sumw : decodeTableWord 32 0x31221000 = some (.sumw 2 2 1) := by decide
theorem test_decode_add : decodeTableWord 32 0x323B2300 = some (.add 3 11 2 3) := by decide
theorem test_decode_minhwd : decodeTableWord 32 0x400A2300 = some (.minhwd 0 10 2 3) := by decide
theorem test_decode_maxhwd : decodeTableWord 32 0x41174500 = some (.maxhwd 1 7 4 5) := by decide
theorem test_decode_tox : decodeTableWord 32 0x50A12000 = some (.tox 10 1 2) := by decide
theorem test_decode_cmpeq : decodeTableWord 32 0x52F42300 = some (.cmpeq 15 4 2 3) := by decide
theorem test_decode_cmpltu : decodeTableWord 32 0x53FCB900 = some (.cmpltu 15 12 11 9) := by decide
/-- op 0x51 in bits 31:24, t = 14 in 23:20, rd = 3 in 19:16, rs1 = 1 in 15:12 (R91). -/
theorem test_decode_fromx :
    decodeTableWord 32 0b01010001_1110_0011_0001_0000_0000_0000 = some (.fromx 14 3 1) := by decide

/-- The illegal words of 95_test_vectors.md section 2. -/
theorem test_decode_illegal :
    [0x00000000, 0x25000000, 0xFF000000, 0x01800000, 0x02F10000, 0x20721030, 0x50712000, 0x20021020, 0x01010100, 0x01010010, 0x01010001, 0x21223450].map (decodeTableWord 32) =
      List.replicate 12 none := by decide

-- ==== The assembler (R98, R99) ====

theorem test_assemble :
    assemble "  split.B1 r2, r3,r1 ; a comment".toList = some (.split 0 2 3 1) := by decide +kernel
theorem test_assemble_hwd : assemble "HWD.b8 r1, r2, r3".toList = some (.minhwd 3 1 2 3) := by decide +kernel
theorem test_assemble_minhwd :
    assemble "MinHwd.RAW r15, r10, r0".toList = some (.minhwd 15 15 10 0) := by decide +kernel
theorem test_disassemble : disassemble (.tox 10 1 2) = "TOX.b4x8 r1, r2".toList := by decide +kernel

-- ==== One step of each command (95_test_vectors.md section 3) ====

/-- The machine after reset with a few registers loaded. -/
def holding (l : List (RegIdx × DataReg)) : State := l.foldl (fun s p => s.setReg p.1 p.2) State.reset

/-- A register after one command. -/
def regAfter (i : Instr) (s : State) (r : RegIdx) : Option DataReg :=
  match exec i s with
  | .next s' => if s'.fault then none else some (s'.reg r)
  | .fault _ => none
  | .refused _ => none

/-- The test value X of 95_test_vectors.md. -/
def valueX : Scalar := 0xFEDCBA98765432100123456789ABCDEF#128

theorem test_wrap :
    regAfter (.wrap 2 1 0) (holding [(0, ⟨true, 15, 0xF#128⟩)]) 1 = some ⟨true, 2, 0xF#128⟩ := by decide +kernel
theorem test_unwrap :
    regAfter (.unwrap 10 1 0) (holding [(0, ⟨true, 10, 0x105#128⟩)]) 1 = some ⟨true, 15, 0x105#128⟩ := by decide +kernel
theorem test_bcast_16 :
    regAfter (.bcast 4 1 0) (holding [(0, ⟨true, 15, 0xBEEF#128⟩)]) 1 = some ⟨true, 4, 0xBEEFBEEFBEEFBEEFBEEFBEEFBEEFBEEF#128⟩ := by decide +kernel
theorem test_bcast_out_of_range :
    regAfter (.bcast 6 1 0) (holding [(0, ⟨true, 15, valueX⟩)]) 1 = some ⟨true, 6, 0xFFFFFFFFFFFFFFFF0123456789ABCDEF#128⟩ := by decide +kernel
theorem test_any_2 :
    regAfter (.any 1 1 0) (holding [(0, ⟨true, 1, valueX⟩)]) 1 = some ⟨true, 1, 0x55545554555411100111455545554555#128⟩ := by decide +kernel
theorem test_any_128 :
    regAfter (.any 7 0 0) (holding [(0, ⟨true, 7, 0x80000000000000000000000000000000#128⟩)]) 0 = some ⟨true, 7, 0x1#128⟩ := by decide +kernel
theorem test_popc :
    regAfter (.popc 0 1 0) (holding [(0, ⟨true, 0, valueX⟩)]) 1 = some ⟨true, 15, 0x40#128⟩ := by decide +kernel
theorem test_popc_ones :
    regAfter (.popc 6 1 0) (holding [(0, ⟨true, 6, 0xFFFFFFFFFFFFFFFFFFFFFFFFFFFFFFFF#128⟩)]) 1 = some ⟨true, 15, 0x80#128⟩ := by decide +kernel
theorem test_split_rd_is_source :
    regAfter (.split 2 1 2 1) (holding [(1, ⟨true, 2, valueX⟩)]) 1 = some ⟨true, 3, 0xF0D0B090705030100020406080A0C0E#128⟩ := by decide +kernel
theorem test_split_rd2 :
    regAfter (.split 0 2 3 1) (holding [(1, ⟨true, 0, valueX⟩)]) 3 = some ⟨true, 1, 0x54541010545410100101454501014545#128⟩ := by decide +kernel
theorem test_merge :
    regAfter (.merge 0 1 2 3) (holding [(2, ⟨true, 1, 0x4#128⟩), (3, ⟨true, 1, 0x5#128⟩)]) 1 = some ⟨true, 0, 0xD#128⟩ := by decide +kernel
theorem test_merge_ignores_upper_halves :
    regAfter (.merge 2 1 2 3) (holding [(2, ⟨true, 3, 0xFFFFFFFFFFFFFFFFFFFFFFFFFFFFFFFF#128⟩), (3, ⟨true, 3, 0x0#128⟩)]) 1 = some ⟨true, 2, 0xF0F0F0F0F0F0F0F0F0F0F0F0F0F0F0F0#128⟩ := by decide +kernel
theorem test_halve_rd :
    regAfter (.halve 1 5 6 1) (holding [(1, ⟨true, 1, valueX⟩)]) 5 = some ⟨true, 2, 0x33323130232221201312111003020100#128⟩ := by decide +kernel
theorem test_halve_rd2 :
    regAfter (.halve 0 5 6 1) (holding [(1, ⟨true, 0, 0x18000000000000000#128⟩)]) 6 = some ⟨true, 1, 0x40000000000000000000000000000000#128⟩ := by decide +kernel
theorem test_union :
    regAfter (.union 2 1 2 3) (holding [(2, ⟨true, 3, 0xFFFFFFFFFFFFFFFFFFFFFFFFFFFFFFFF#128⟩), (3, ⟨true, 3, 0x0#128⟩)]) 1 = some ⟨true, 2, 0xFFFFFFFFFFFFFFFF0000000000000000#128⟩ := by decide +kernel
theorem test_union_64 :
    regAfter (.union 6 1 2 3) (holding [(2, ⟨true, 7, valueX⟩), (3, ⟨true, 7, 0x0#128⟩)]) 1 = some ⟨true, 6, 0x123456789ABCDEF0000000000000000#128⟩ := by decide +kernel
theorem test_squash_1 :
    regAfter (.squash 0 1 2) (holding [(2, ⟨true, 1, valueX⟩)]) 1 = some ⟨true, 0, 0xEE44EE4411BB11BB#128⟩ := by decide +kernel
theorem test_squash_8 :
    regAfter (.squash 3 1 2) (holding [(2, ⟨true, 4, 0xFF00EE00DD00CC00BB00AA00990088#128⟩)]) 1 = some ⟨true, 3, 0xFFEEDDCCBBAA9988#128⟩ := by decide +kernel
theorem test_sumw2_1 :
    regAfter (.sumw2 0 1 1) (holding [(1, ⟨true, 0, valueX⟩)]) 1 = some ⟨true, 1, 0xA998655465542110011245564556899A#128⟩ := by decide +kernel
theorem test_sumw2_ones_64 :
    regAfter (.sumw2 6 1 0) (holding [(0, ⟨true, 6, 0xFFFFFFFFFFFFFFFFFFFFFFFFFFFFFFFF#128⟩)]) 1 = some ⟨true, 7, 0x1FFFFFFFFFFFFFFFE#128⟩ := by decide +kernel
theorem test_sumw_4 :
    regAfter (.sumw 2 1 0) (holding [(0, ⟨true, 2, valueX⟩)]) 1 = some ⟨true, 15, 0xF0#128⟩ := by decide +kernel
theorem test_sumw_128 :
    regAfter (.sumw 7 1 0) (holding [(0, ⟨true, 7, 0xFFFFFFFFFFFFFFFFFFFFFFFFFFFFFFFF#128⟩)]) 1 = some ⟨true, 15, 0xFFFFFFFFFFFFFFFFFFFFFFFFFFFFFFFF#128⟩ := by decide +kernel
theorem test_add_carry_crosses_lane :
    regAfter (.add 2 1 2 3) (holding [(2, ⟨true, 2, 0xF#128⟩), (3, ⟨true, 2, 0x1#128⟩)]) 1 = some ⟨true, 2, 0x10#128⟩ := by decide +kernel
theorem test_add_wraps :
    regAfter (.add 0 1 2 3) (holding [(2, ⟨true, 0, 0xFFFFFFFFFFFFFFFFFFFFFFFFFFFFFFFF#128⟩), (3, ⟨true, 0, 0x1#128⟩)]) 1 = some ⟨true, 0, 0x0#128⟩ := by decide +kernel
theorem test_minhwd_vector :
    regAfter (.minhwd 1 6 4 5) (holding [(4, ⟨true, 1, 0x6186#128⟩), (5, ⟨true, 1, 0x56A#128⟩)]) 6 = some ⟨true, 1, 0x6464#128⟩ := by decide +kernel
theorem test_minhwd_8 :
    regAfter (.minhwd 3 6 4 5) (holding [(4, ⟨true, 3, 0x6186#128⟩), (5, ⟨true, 3, 0x56A#128⟩)]) 6 = some ⟨true, 3, 0x5C1C#128⟩ := by decide +kernel
theorem test_maxhwd_vector :
    regAfter (.maxhwd 1 7 4 5) (holding [(4, ⟨true, 1, 0x6186#128⟩), (5, ⟨true, 1, 0x56A#128⟩)]) 7 = some ⟨true, 1, 0x6664#128⟩ := by decide +kernel
theorem test_maxhwd_8 :
    regAfter (.maxhwd 3 7 4 5) (holding [(4, ⟨true, 3, 0x6186#128⟩), (5, ⟨true, 3, 0x56A#128⟩)]) 7 = some ⟨true, 3, 0x5C1C#128⟩ := by decide +kernel
theorem test_tox :
    regAfter (.tox 10 1 2) (holding [(2, ⟨true, 3, 0x105#128⟩)]) 1 = some ⟨true, 10, 0x105#128⟩ := by decide +kernel
theorem test_fromx :
    regAfter (.fromx 10 3 1) (holding [(1, ⟨true, 10, 0x105#128⟩)]) 3 = some ⟨true, 3, 0x105#128⟩ := by decide +kernel
theorem test_cmpeq :
    regAfter (.cmpeq 2 1 2 3) (holding [(2, ⟨true, 2, 0x5#128⟩), (3, ⟨true, 2, 0x5#128⟩)]) 1 = some ⟨true, 15, 0x1#128⟩ := by decide +kernel
theorem test_cmpeq_raw :
    regAfter (.cmpeq 15 1 2 3) (holding [(2, ⟨true, 15, valueX⟩), (3, ⟨true, 15, 0xFEDCBA98765432100123456789ABCDEE#128⟩)]) 1 = some ⟨true, 15, 0x0#128⟩ := by decide +kernel
theorem test_cmpltu :
    regAfter (.cmpltu 3 1 2 3) (holding [(2, ⟨true, 3, 0xFF#128⟩), (3, ⟨true, 3, 0x100#128⟩)]) 1 = some ⟨true, 15, 0x1#128⟩ := by decide +kernel
theorem test_cmpltu_not :
    regAfter (.cmpltu 15 1 2 3) (holding [(2, ⟨true, 15, 0xFFFFFFFFFFFFFFFFFFFFFFFFFFFFFFFF#128⟩), (3, ⟨true, 15, 0x0#128⟩)]) 1 = some ⟨true, 15, 0x0#128⟩ := by decide +kernel

-- ==== Faults (95_test_vectors.md, faults and priority) ====

/-- STATUS, FCMD and RETIRED after the engine has executed a word. -/
def afterWord (w : Nat) (s : State) : Option (Word × Word × Word) :=
  match step (s.withFetchWord 32 w) with
  | .next s' => some (s'.statusWord, s'.fcmd, s'.retired)
  | .fault _ => none
  | .refused _ => none

theorem test_fault_illegal :
    afterWord 0x00000000 State.reset = some (0x12#32, 0x00000000#32, 0#32) := by decide +kernel
theorem test_fault_uninit :
    afterWord 0x01010000 State.reset = some (0x22#32, 0x01010000#32, 0#32) := by decide +kernel
theorem test_fault_uninit_rs1_first :
    afterWord 0x32312300 (holding [(3, ⟨true, 2, 0x1#128⟩)]) = some (0x22#32, 0x32312300#32, 0#32) := by decide +kernel
theorem test_fault_tag_rs1_first :
    afterWord 0x32312300 (holding [(2, ⟨true, 2, 0x1#128⟩)]) = some (0x32#32, 0x32312300#32, 0#32) := by decide +kernel
theorem test_fault_uninit_rs2 :
    afterWord 0x32312300 (holding [(2, ⟨true, 3, 0x1#128⟩)]) = some (0xA2#32, 0x32312300#32, 0#32) := by decide +kernel
theorem test_fault_tag_rs2 :
    afterWord 0x32312300 (holding [(2, ⟨true, 3, 0x1#128⟩), (3, ⟨true, 2, 0x1#128⟩)]) = some (0xB2#32, 0x32312300#32, 0#32) := by decide +kernel
theorem test_no_fault_retires :
    afterWord 0x32312300 (holding [(2, ⟨true, 3, 0x1#128⟩), (3, ⟨true, 3, 0x1#128⟩)]) = some (0x0#32, 0x00000000#32, 1#32) := by decide +kernel

/-- A queued word is discarded by a fault: STATUS 0x36 of program P4, with FAULT, DROP and TAG. -/
theorem test_fault_drops_queue :
    afterWord 0x12031000 { holding [(1, ⟨true, 1, 0⟩)] with queue := [0x10240000#32] } =
      some (0x36#32, 0x12031000#32, 0#32) := by decide +kernel

-- ==== Host accesses (95_test_vectors.md, host accesses) ====

/-- A write and then a read of one offset. -/
def writeThenRead (off : Nat) (v : Word) (s : State) : Option Response :=
  match s.hostWrite 32 off v with
  | .completes _ s' =>
    match s'.hostRead 32 off with
    | .completes r _ => some r
    | .waits => none
  | .waits => none

theorem test_read_id : State.reset.hostRead 32 0x000 = .completes (.readData 0x53570001#32) State.reset := rfl
theorem test_read_tag0 : State.reset.hostRead 32 0x110 = .completes (.readData 0x0000000F#32) State.reset := rfl
theorem test_read_data0 : State.reset.hostRead 32 0x100 = .completes (.readData 0#32) State.reset := rfl
theorem test_write_tag : writeThenRead 0x130 0xFFFFFFE3#32 State.reset = some (.readData 0x3#32) := by decide +kernel
theorem test_write_data : writeThenRead 0x2EC 0xFEDCBA98#32 State.reset = some (.readData 0xFEDCBA98#32) := by
  decide +kernel
theorem test_write_ctrl : writeThenRead 0x00C 0xFFFFFFFF#32 State.reset = some (.readData 1#32) := by decide +kernel
theorem test_write_status : State.reset.hostWrite 32 0x008 1#32 = .completes .refusedWrite State.reset := rfl
theorem test_read_cmd : State.reset.hostRead 32 0x010 = .completes (.refusedRead 0#32) State.reset := rfl

/-- Reads that are refused with data 0 (reserved, misaligned, 16 bits wide). -/
theorem test_refused_reads :
    [(32, 0x024), (32, 0x114), (32, 0x11C), (32, 0x300), (32, 0xFFC), (32, 0x002), (16, 0x100)].map
      (fun p => selectPort p.1 p.2) = List.replicate 7 none := by decide

/-- CLRF returns STATUS to 0 and keeps FCMD and FIDX (program P4). -/
theorem test_clrf :
    ({ State.reset with fault := true, drop := true, fcause := .tag, fcmd := 0x12031000#32, fidx := 2, fie := true
       }.hostWrite 32 0x00C 0x101#32) =
      .completes .writeDone { State.reset with fcmd := 0x12031000#32, fidx := 2, fie := true } := rfl

-- ==== Witnesses: the hypotheses of each statement can be met ====

/-- A state of the invariant that is not the state after reset. -/
def busyState : State :=
  { holding [(1, ⟨true, 1, 3⟩)] with executing := some 0x01010000#32, retired := 0xFFFFFFFF#32, fie := true }

/-- A faulted state of the invariant. -/
def faultedState : State :=
  { State.reset with fault := true, drop := true, fcause := .uninit, fopnd := true, fcmd := 0x32312300#32 }

/-- A state of the invariant with a full queue. -/
def fullState : State := { State.reset with queue := List.replicate Config.qdepth 0#32 }

theorem busyState_inv : busyState.Inv := by
  have := qdepth_bounds
  simp [State.Inv, busyState, holding, State.setReg, State.reset]

theorem faultedState_inv : faultedState.Inv := by
  have := qdepth_bounds
  simp [State.Inv, faultedState, State.reset, State.idle]

theorem fullState_inv : fullState.Inv := by
  simp [State.Inv, fullState, State.reset]

theorem wit_DecodeOfEncode : (Instr.unwrap 14 15 15).wellFormed = true := by decide

theorem wit_EncodeOfDecode : decode 0x02EFF000#32 = .ok (.unwrap 14 15 15) := by rfl

theorem wit_StepRunsDecodedCommand :
    (State.reset.startWord 0x01010000#32).AboutToExecute 0x01010000#32 ∧
      decode 0x01010000#32 = .ok (.wrap 0 1 0) := ⟨⟨rfl, rfl, rfl, .inr (.inl rfl)⟩, rfl⟩

theorem wit_IllegalWordRaisesIllegal :
    (State.reset.startWord 0x20021020#32).AboutToExecute 0x20021020#32 ∧ IllegalWord 0x20021020#32 :=
  ⟨⟨rfl, rfl, rfl, .inr (.inl rfl)⟩, .inr ⟨⟨0x20, 0, 6, false, true⟩, by decide, by decide, by unfold RowRejects; decide⟩⟩

theorem wit_IllegalWordRaisesIllegal_unassigned :
    (State.reset.startWord 0x54000000#32).AboutToExecute 0x54000000#32 ∧ IllegalWord 0x54000000#32 :=
  ⟨⟨rfl, rfl, rfl, .inr (.inl rfl)⟩, .inl (by decide)⟩

/-- The engine moves although `pick` is not the engine: the reset input is picked, and cannot move. -/
theorem wit_StepRunsDecodedCommand_pickCannotMove :
    { State.reset with executing := some 0x01010000#32, inputs := [.access (.read 32 0)], pick := .reset }.AboutToExecute
      0x01010000#32 := ⟨rfl, rfl, rfl, .inr (.inr rfl)⟩

/-- The engine's move with a SYNC read that waits, and with one still to be presented while the reset input, which cannot
move, is picked. -/
theorem wit_StepStartsHeadOfQueue :
    { State.reset with queue := [1#32], waiting := some (.read 32 (Config.base + 0x020)), pick := .engine }.EngineToMove ∧
    { State.reset with queue := [1#32, 2#32], inputs := [.access (.read 32 0)], pick := .reset }.EngineToMove :=
  ⟨⟨rfl, .inr (.inl rfl)⟩, rfl, .inr (.inr rfl)⟩

theorem wit_StepStartsHeadOfQueue_alone : { State.reset with queue := [1#32] }.movers = [Agent.engine] := rfl

theorem wit_EveryMoverMayMoveNext :
    { busyState with inputs := [.reset] }.canMove .engine = true ∧
    { busyState with inputs := [.access (.read 32 0)] }.canMove .bus = true ∧
    { busyState with inputs := [.reset] }.canMove .reset = true := by decide +kernel

theorem wit_FirstFailingCheckIsReported :
    (Instr.wrap 8 1 0).wellFormed = false ∧
    ((Instr.add 3 1 2 3).wellFormed = true ∧
      firstFailure (holding [(2, ⟨true, 3, 0⟩), (3, ⟨true, 2, 0⟩)]) false (sourcesOf (.add 3 1 2 3)) =
        some (.tag, true)) ∧
    firstFailure (holding [(2, ⟨true, 3, 0⟩), (3, ⟨true, 3, 0⟩)]) false (sourcesOf (.add 3 1 2 3)) = none := by
  decide +kernel

theorem wit_RetiringWritesOnlyDestinations :
    (Instr.split 6 2 3 1).wellFormed = true ∧
      firstFailure (holding [(1, ⟨true, 6, 0⟩)]) false (sourcesOf (.split 6 2 3 1)) = none ∧
      (∃ s', exec (.split 6 2 3 1) (holding [(1, ⟨true, 6, 0⟩)]) = .next s') ∧
      (3, 7#4) ∈ destinationsOf (.split 6 2 3 1) ∧ ∀ t, (15, t) ∉ destinationsOf (.split 6 2 3 1) :=
  ⟨by decide, by decide +kernel, ⟨_, rfl⟩, by decide, by decide⟩

theorem wit_FaultsArePrecise :
    State.reset.fault = false ∧ ∃ s', exec (.wrap 0 1 0) State.reset = .next s' ∧ s'.fault = true :=
  ⟨rfl, _, rfl, rfl⟩

theorem wit_NothingExecutesWhileFaulted :
    faultedState.Inv ∧ faultedState.fault = true ∧ ∃ s', step faultedState = .next s' ∧ s'.fault = true :=
  ⟨faultedState_inv, rfl, _, rfl, rfl⟩

/-- A faulted state in which the host is about to write CTRL. -/
def clearingState : State := { faultedState with inputs := [.access (.write 32 (Config.base + 0x00C) 0x100#32)] }

theorem wit_OnlyClrfOrResetClearsFault :
    clearingState.fault = true ∧ ∃ s', step clearingState = .next s' ∧ s'.fault = false := by
  refine ⟨rfl, clearingState.busMove, rfl, ?_⟩
  have hw : windowOffset (Config.base + 12) = some 12 := windowOffset_base (by norm_num)
  have hp : selectPort 32 12 = some .ctrl := rfl
  simp [clearingState, State.busMove, State.tryAccess, State.hostAccess, hw, hp, State.hostWrite, State.writeCtrl,
    State.setFie, State.clearFault, faultedState, State.reset]

theorem wit_OnlyClrfOrResetClearsFault_reset :
    ∃ s', step { faultedState with inputs := [.reset] } = .next s' ∧ s'.fault = false := ⟨_, rfl, rfl⟩

theorem wit_WrapResult :
    ¬(8#4).toNat ≤ 7 ∧
      firstFailure State.reset false [(1, 15#4)] = some (.uninit, false) ∧
      firstFailure (holding [(1, ⟨true, 0, 1⟩)]) false [(1, 15#4)] = some (.tag, false) ∧
      (7#4).toNat ≤ 7 ∧
      (holding [(1, ⟨true, 15, 1⟩)]).Holds 1 15#4 := by
  simp only [State.Holds]; decide +kernel

theorem wit_UnwrapResult :
    ¬(15#4).toNat ≤ 14 ∧
      firstFailure State.reset false [(1, 14#4)] = some (.uninit, false) ∧
      firstFailure (holding [(1, ⟨true, 15, 1⟩)]) false [(1, 14#4)] = some (.tag, false) ∧
      (14#4).toNat ≤ 14 ∧
      (holding [(1, ⟨true, 14, 1⟩)]).Holds 1 14#4 := by
  simp only [State.Holds]; decide +kernel

theorem wit_BcastResult :
    ¬(8#4).toNat ≤ 7 ∧
      firstFailure State.reset false [(1, 15#4)] = some (.uninit, false) ∧
      firstFailure (holding [(1, ⟨true, 0, 1⟩)]) false [(1, 15#4)] = some (.tag, false) ∧
      (7#4).toNat ≤ 7 ∧
      (holding [(1, ⟨true, 15, 1⟩)]).Holds 1 15#4 ∧
      1 < 2 ^ 2 ^ (0#4).toNat := by
  simp only [State.Holds]; decide +kernel

theorem wit_AnyResult :
    ¬(8#4).toNat ≤ 7 ∧
      firstFailure State.reset false [(1, 7#4)] = some (.uninit, false) ∧
      firstFailure (holding [(1, ⟨true, 8, 1⟩)]) false [(1, 7#4)] = some (.tag, false) ∧
      (7#4).toNat ≤ 7 ∧
      (holding [(1, ⟨true, 7, 1⟩)]).Holds 1 7#4 := by
  simp only [State.Holds]; decide +kernel

theorem wit_PopcResult :
    ¬(8#4).toNat ≤ 7 ∧
      firstFailure State.reset false [(1, 7#4)] = some (.uninit, false) ∧
      firstFailure (holding [(1, ⟨true, 8, 1⟩)]) false [(1, 7#4)] = some (.tag, false) ∧
      (7#4).toNat ≤ 7 ∧
      (holding [(1, ⟨true, 7, 1⟩)]).Holds 1 7#4 := by
  simp only [State.Holds]; decide +kernel

theorem wit_SplitResult :
    ¬(7#4).toNat ≤ 6 ∧
      ¬((6#4).toNat ≤ 6 ∧ (2 : RegIdx) ≠ 2) ∧
      firstFailure State.reset false [(1, 6#4)] = some (.uninit, false) ∧
      firstFailure (holding [(1, ⟨true, 7, 1⟩)]) false [(1, 6#4)] = some (.tag, false) ∧
      (6#4).toNat ≤ 6 ∧
      (holding [(1, ⟨true, 6, 1⟩)]).Holds 1 6#4 := by
  simp only [State.Holds]; decide +kernel

theorem wit_MergeResult :
    ¬(7#4).toNat ≤ 6 ∧
      firstFailure State.reset false [(2, 7#4), (3, 7#4)] = some (.uninit, false) ∧
      firstFailure (holding [(2, ⟨true, 7, 1⟩), (3, ⟨true, 8, 1⟩)]) false [(2, 7#4), (3, 7#4)] = some (.tag, true) ∧
      (6#4).toNat ≤ 6 ∧
      (holding [(2, ⟨true, 7, 1⟩), (3, ⟨true, 7, 1⟩)]).Holds 2 7#4 ∧
      (holding [(2, ⟨true, 7, 1⟩), (3, ⟨true, 7, 1⟩)]).Holds 3 7#4 := by
  simp only [State.Holds]; decide +kernel

theorem wit_HalveResult :
    ¬(7#4).toNat ≤ 6 ∧
      ¬((6#4).toNat ≤ 6 ∧ (2 : RegIdx) ≠ 2) ∧
      firstFailure State.reset false [(1, 6#4)] = some (.uninit, false) ∧
      firstFailure (holding [(1, ⟨true, 7, 1⟩)]) false [(1, 6#4)] = some (.tag, false) ∧
      (6#4).toNat ≤ 6 ∧
      (holding [(1, ⟨true, 6, 1⟩)]).Holds 1 6#4 := by
  simp only [State.Holds]; decide +kernel

theorem wit_UnionResult :
    ¬(7#4).toNat ≤ 6 ∧
      firstFailure State.reset false [(2, 7#4), (3, 7#4)] = some (.uninit, false) ∧
      firstFailure (holding [(2, ⟨true, 7, 1⟩), (3, ⟨true, 8, 1⟩)]) false [(2, 7#4), (3, 7#4)] = some (.tag, true) ∧
      (6#4).toNat ≤ 6 ∧
      (holding [(2, ⟨true, 7, 1⟩), (3, ⟨true, 7, 1⟩)]).Holds 2 7#4 ∧
      (holding [(2, ⟨true, 7, 1⟩), (3, ⟨true, 7, 1⟩)]).Holds 3 7#4 := by
  simp only [State.Holds]; decide +kernel

theorem wit_SquashResult :
    ¬(7#4).toNat ≤ 6 ∧
      firstFailure State.reset false [(1, 7#4)] = some (.uninit, false) ∧
      firstFailure (holding [(1, ⟨true, 8, 1⟩)]) false [(1, 7#4)] = some (.tag, false) ∧
      (6#4).toNat ≤ 6 ∧
      (holding [(1, ⟨true, 7, 1⟩)]).Holds 1 7#4 := by
  simp only [State.Holds]; decide +kernel

theorem wit_Sumw2Result :
    ¬(7#4).toNat ≤ 6 ∧
      firstFailure State.reset false [(1, 6#4)] = some (.uninit, false) ∧
      firstFailure (holding [(1, ⟨true, 7, 1⟩)]) false [(1, 6#4)] = some (.tag, false) ∧
      (6#4).toNat ≤ 6 ∧
      (holding [(1, ⟨true, 6, 1⟩)]).Holds 1 6#4 := by
  simp only [State.Holds]; decide +kernel

theorem wit_SumwResult :
    ¬(8#4).toNat ≤ 7 ∧
      firstFailure State.reset false [(1, 7#4)] = some (.uninit, false) ∧
      firstFailure (holding [(1, ⟨true, 8, 1⟩)]) false [(1, 7#4)] = some (.tag, false) ∧
      (7#4).toNat ≤ 7 ∧
      (holding [(1, ⟨true, 7, 1⟩)]).Holds 1 7#4 := by
  simp only [State.Holds]; decide +kernel

theorem wit_AddResult :
    ¬(8#4).toNat ≤ 7 ∧
      firstFailure State.reset false [(2, 7#4), (3, 7#4)] = some (.uninit, false) ∧
      firstFailure (holding [(2, ⟨true, 7, 1⟩), (3, ⟨true, 8, 1⟩)]) false [(2, 7#4), (3, 7#4)] = some (.tag, true) ∧
      (7#4).toNat ≤ 7 ∧
      (holding [(2, ⟨true, 7, 1⟩), (3, ⟨true, 7, 1⟩)]).Holds 2 7#4 ∧
      (holding [(2, ⟨true, 7, 1⟩), (3, ⟨true, 7, 1⟩)]).Holds 3 7#4 := by
  simp only [State.Holds]; decide +kernel

theorem wit_MinhwdResult :
    ¬(8#4).toNat ≤ 7 ∧
      firstFailure State.reset false [(2, 7#4), (3, 7#4)] = some (.uninit, false) ∧
      firstFailure (holding [(2, ⟨true, 7, 1⟩), (3, ⟨true, 8, 1⟩)]) false [(2, 7#4), (3, 7#4)] = some (.tag, true) ∧
      (7#4).toNat ≤ 7 ∧
      (holding [(2, ⟨true, 7, 1⟩), (3, ⟨true, 7, 1⟩)]).Holds 2 7#4 ∧
      (holding [(2, ⟨true, 7, 1⟩), (3, ⟨true, 7, 1⟩)]).Holds 3 7#4 := by
  simp only [State.Holds]; decide +kernel

theorem wit_MaxhwdResult :
    ¬(8#4).toNat ≤ 7 ∧
      firstFailure State.reset false [(2, 7#4), (3, 7#4)] = some (.uninit, false) ∧
      firstFailure (holding [(2, ⟨true, 7, 1⟩), (3, ⟨true, 8, 1⟩)]) false [(2, 7#4), (3, 7#4)] = some (.tag, true) ∧
      (7#4).toNat ≤ 7 ∧
      (holding [(2, ⟨true, 7, 1⟩), (3, ⟨true, 7, 1⟩)]).Holds 2 7#4 ∧
      (holding [(2, ⟨true, 7, 1⟩), (3, ⟨true, 7, 1⟩)]).Holds 3 7#4 := by
  simp only [State.Holds]; decide +kernel

theorem wit_ToxResult :
    ¬(8 ≤ (7#4).toNat ∧ (7#4).toNat ≤ 14) ∧
      ¬(8 ≤ (15#4).toNat ∧ (15#4).toNat ≤ 14) ∧
      firstFailure State.reset false [(1, 7#4)] = some (.uninit, false) ∧
      firstFailure (holding [(1, ⟨true, 8, 1⟩)]) false [(1, 7#4)] = some (.tag, false) ∧
      (8 ≤ (14#4).toNat ∧ (14#4).toNat ≤ 14) ∧
      (holding [(1, ⟨true, 7, 1⟩)]).Holds 1 7#4 := by
  simp only [State.Holds]; decide +kernel

theorem wit_FromxResult :
    ¬(8 ≤ (7#4).toNat ∧ (7#4).toNat ≤ 14) ∧
      ¬(8 ≤ (15#4).toNat ∧ (15#4).toNat ≤ 14) ∧
      firstFailure State.reset false [(1, 14#4)] = some (.uninit, false) ∧
      firstFailure (holding [(1, ⟨true, 15, 1⟩)]) false [(1, 14#4)] = some (.tag, false) ∧
      (8 ≤ (14#4).toNat ∧ (14#4).toNat ≤ 14) ∧
      (holding [(1, ⟨true, 14, 1⟩)]).Holds 1 14#4 := by
  simp only [State.Holds]; decide +kernel

theorem wit_CmpeqResult :
    firstFailure State.reset false [(2, 15#4), (3, 15#4)] = some (.uninit, false) ∧
      firstFailure (holding [(2, ⟨true, 15, 1⟩), (3, ⟨true, 0, 1⟩)]) false [(2, 15#4), (3, 15#4)] = some (.tag, true) ∧
      (holding [(2, ⟨true, 15, 1⟩), (3, ⟨true, 15, 1⟩)]).Holds 2 15#4 ∧
      (holding [(2, ⟨true, 15, 1⟩), (3, ⟨true, 15, 1⟩)]).Holds 3 15#4 := by
  simp only [State.Holds]; decide +kernel

theorem wit_CmpltuResult :
    firstFailure State.reset false [(2, 15#4), (3, 15#4)] = some (.uninit, false) ∧
      firstFailure (holding [(2, ⟨true, 15, 1⟩), (3, ⟨true, 0, 1⟩)]) false [(2, 15#4), (3, 15#4)] = some (.tag, true) ∧
      (holding [(2, ⟨true, 15, 1⟩), (3, ⟨true, 15, 1⟩)]).Holds 2 15#4 ∧
      (holding [(2, ⟨true, 15, 1⟩), (3, ⟨true, 15, 1⟩)]).Holds 3 15#4 := by
  simp only [State.Holds]; decide +kernel

theorem wit_MergeUndoesSplit :
    (6#4).toNat ≤ 6 ∧ (2 : RegIdx) ≠ 3 ∧ (holding [(1, ⟨true, 6, 1⟩)]).Holds 1 6 := by
  simp only [State.Holds]; decide +kernel

theorem wit_UnionUndoesHalve :
    (0#4).toNat ≤ 6 ∧ (1 : RegIdx) ≠ 2 ∧ (holding [(1, ⟨true, 0, 1⟩)]).Holds 1 0 := by
  simp only [State.Holds]; decide +kernel

theorem wit_SplitOfBroadcastIsEqualPair :
    (0#4).toNat ≤ 6 ∧ (2 : RegIdx) ≠ 3 ∧ (holding [(0, ⟨true, 15, 1⟩)]).Holds 0 15 ∧
      ((holding [(0, ⟨true, 15, 1⟩)]).reg 0).data.toNat < 2 ^ 2 ^ (0#4).toNat := by
  simp only [State.Holds]; decide +kernel

theorem wit_SevenPairwiseSumsCountOnes : (holding [(1, ⟨true, 0, valueX⟩)]).Holds 1 0 := by
  simp only [State.Holds]; decide +kernel

theorem wit_SumwIsPairwiseSumsChained :
    (6#4).toNat ≤ 6 ∧ (holding [(1, ⟨true, 6, valueX⟩)]).Holds 1 6 := by
  simp only [State.Holds]; decide +kernel

/-- All the conditional clauses together: t = 0, equal data. -/
theorem wit_DistanceCornerCases :
    (0#4).toNat ≤ 7 ∧ (holding [(2, ⟨true, 0, 5⟩), (3, ⟨true, 0, 5⟩)]).Holds 2 0 ∧
      (holding [(2, ⟨true, 0, 5⟩), (3, ⟨true, 0, 5⟩)]).Holds 3 0 ∧ (0#4 : Tag) ≠ 1 ∧
      ((holding [(2, ⟨true, 0, 5⟩), (3, ⟨true, 0, 5⟩)]).reg 2).data =
        ((holding [(2, ⟨true, 0, 5⟩), (3, ⟨true, 0, 5⟩)]).reg 3).data := by
  simp only [State.Holds]; decide +kernel

theorem wit_LaneIsBitField : (7 ≤ 7 ∧ 0 < 128 / 2 ^ 7) ∧ 0 ≤ 7 ∧ 127 < 128 / 2 ^ 0 := by decide

theorem wit_MaskTables : 6 ≤ 6 ∧ 127 < 128 := by decide

theorem wit_MasksSelectLanes :
    ((6#4).toNat ≤ 6 ∧ 1 < 128 / 2 ^ (6#4).toNat) ∧ (0#4).toNat ≤ 6 ∧ 127 < 128 / 2 ^ (0#4).toNat := by decide

theorem wit_ResetInputResets :
    { faultedState with inputs := [.reset] }.movers = [Agent.reset] ∧
      { busyState with inputs := [.reset], pick := .reset, waiting := some (.read 32 0) }.pick = .reset := by
  decide +kernel

theorem wit_WindowMap :
    (8 ≠ 32) ∧ (0x002 % 4 ≠ 0) ∧ (0x024 ≤ 0x024 ∧ 0x0FF < 0x100) ∧
      (0x114 + 0x20 * (15#4).toNat ≤ 0x2F4 ∧ 0x2FF < 0x120 + 0x20 * (15#4).toNat) ∧ 0x300 ≤ 0x300 := by decide

theorem wit_RefusedAccesses :
    (64 ≠ 32) ∧ (0x001 % 4 ≠ 0) ∧ ReservedOffset 0x024 ∧ ReservedOffset 0x2FF ∧ ReservedOffset 0x300 ∧
      0x020 ∈ [0x000, 0x004, 0x008, 0x014, 0x018, 0x01C, 0x020] :=
  ⟨by decide, by decide, .inl (by decide), .inr (.inl ⟨15, by decide⟩), .inr (.inr (by decide)), by decide⟩

theorem wit_HostReadsChangeNothing :
    busyState.hostRead 32 0x018 = .completes (.readData 0#32) busyState := rfl

theorem wit_AccessesWaitForIdle : faultedState.Inv ∧ faultedState.fault = true := ⟨faultedState_inv, rfl⟩

theorem wit_DataWordsReadAndWrite : busyState.idle = false ∧ faultedState.idle = true := by decide +kernel

theorem wit_TagWordReadsAndWrites : busyState.idle = false ∧ faultedState.idle = true := by decide +kernel

theorem wit_CmdWrite :
    (faultedState.Inv ∧ faultedState.fault = true) ∧
    (fullState.Inv ∧ fullState.fault = false ∧ fullState.queue.length = Config.qdepth) ∧
    (busyState.Inv ∧ busyState.fault = false ∧ busyState.queue.length ≠ Config.qdepth) := by
  have := qdepth_bounds
  refine ⟨⟨faultedState_inv, rfl⟩, ⟨fullState_inv, rfl, List.length_replicate⟩, busyState_inv, rfl, ?_⟩
  show 0 ≠ Config.qdepth
  omega

theorem wit_CtrlWriteAndClrf :
    (faultedState.Inv ∧ (0x100#32).getLsbD 8 = true ∧ faultedState.fault = true) ∧
    (0x001#32).getLsbD 8 = false ∧ busyState.Inv ∧ busyState.fault = false :=
  ⟨⟨faultedState_inv, by decide, rfl⟩, by decide, busyState_inv, rfl⟩

theorem wit_ControlRegistersRead : faultedState.idle = true := by decide +kernel

theorem wit_StatusWordFields : busyState.Inv ∧ faultedState.Inv := ⟨busyState_inv, faultedState_inv⟩

/-- The first contested move after reset is a free choice (R70, R269; log 3). -/
theorem test_reset_pick_is_drawn : State.reset.pick = Config.pick 0 ∧ State.reset.draw.pick = Config.pick 1 := ⟨rfl, rfl⟩

/-- A faulted engine, so idle, with a SYNC read that waits. -/
def waitingState : State := { faultedState with waiting := some (.read 32 (Config.base + 0x020)) }

theorem waitingState_busToMove : waitingState.BusToMove := by
  have hw : windowOffset (Config.base + 32) = some 32 := windowOffset_base (by norm_num)
  have hc : waitingState.busCanMove = true := by
    simp only [State.busCanMove, waitingState, State.hostAccess, hw]
    rfl
  refine ⟨hc, .inl ?_⟩
  simp only [State.movers, List.filter, State.canMove, hc]
  rfl

/-- The bus moves with an access that waits, and with the next one of the outside. -/
theorem wit_HostAccessesInOrder :
    (waitingState.BusToMove ∧ waitingState.presented = some (.read 32 (Config.base + 0x020))) ∧
    clearingState.BusToMove ∧ clearingState.presented = some (.write 32 (Config.base + 0x00C) 0x100#32) :=
  ⟨⟨waitingState_busToMove, rfl⟩, ⟨rfl, .inl rfl⟩, rfl⟩

theorem wit_HostAccessesInOrder_step : ∃ s', step clearingState = .next s' := ⟨_, rfl⟩

/-- The last offset of the window, and the first address beyond it. -/
theorem wit_HostAccessesInOrder_window : 4095 < 4096 ∧ Config.base + 4096 ≤ Config.base + 4096 := by omega

theorem wit_StepKeepsInvariant : busyState.Inv ∧ ∃ s', step busyState = .next s' := ⟨busyState_inv, _, rfl⟩

theorem wit_MachineComesToRest : busyState.Inv ∧ fullState.Inv := ⟨busyState_inv, fullState_inv⟩

theorem wit_RegistersChangeOnlyByCommandsOrHost :
    ∃ s', step ((holding [(0, ⟨true, 15, 1⟩)]).withFetchWord 32 0x01010000) = .next s' ∧
      s'.reg 1 ≠ (holding [(0, ⟨true, 15, 1⟩)]).reg 1 := ⟨_, rfl, by decide +kernel⟩

/-- The machine after reset with a DATA write to come. -/
def loadingState : State :=
  { State.reset with inputs := [.access (.write 32 (Config.base + 0x100) 0x89ABCDEF#32)] }

theorem wit_RegistersChangeOnlyByCommandsOrHost_write :
    ∃ s', step loadingState = .next s' ∧ (s'.reg 0).data = 0x89ABCDEF#128 ∧ (loadingState.reg 0).data = 0 := by
  refine ⟨loadingState.busMove, rfl, ?_, rfl⟩
  have hw : windowOffset (Config.base + 256) = some 256 := windowOffset_base (by norm_num)
  simp only [loadingState, State.busMove, State.tryAccess, State.hostAccess, State.reset, hw]
  rfl

theorem wit_RegistersChangeOnlyByCommandsOrHost_reset :
    ∃ s', step { holding [(0, ⟨true, 3, 1⟩)] with inputs := [.reset] } = .next s' ∧
      s'.reg 0 ≠ (holding [(0, ⟨true, 3, 1⟩)]).reg 0 := ⟨_, rfl, by decide +kernel⟩

end Sys2Proof.Tests
end

/-! The mask tables (R27 to R29), the words of the control registers (R35 to R42) and the values of reset (R45). -/

namespace Sys2Proof.Machine

/-- The LEFT mask table as R28 lists it. -/
theorem leftMask_values :
    leftMask 0 = 0xFFFFFFFFFFFFFFFF0000000000000000#128 ∧ leftMask 1 = 0xFFFFFFFF00000000FFFFFFFF00000000#128 ∧
    leftMask 2 = 0xFFFF0000FFFF0000FFFF0000FFFF0000#128 ∧ leftMask 3 = 0xFF00FF00FF00FF00FF00FF00FF00FF00#128 ∧
    leftMask 4 = 0xF0F0F0F0F0F0F0F0F0F0F0F0F0F0F0F0#128 ∧ leftMask 5 = 0xCCCCCCCCCCCCCCCCCCCCCCCCCCCCCCCC#128 ∧
    leftMask 6 = 0xAAAAAAAAAAAAAAAAAAAAAAAAAAAAAAAA#128 := by decide +kernel

/-- The two mask tables part the bits of a scalar at every level (R27). -/
theorem rightMask_complements (l : Nat) :
    rightMask l = ~~~leftMask l ∧ leftMask l ||| rightMask l = BitVec.allOnes 128 ∧ leftMask l &&& rightMask l = 0 :=
  ⟨rfl, BitVec.or_not_self _, BitVec.and_not_self _⟩

/-- Settles O41: the bits of LEFT_MASKS by its formula, RIGHT_MASKS as the complement, and R28's literals: the left ones
by evaluation, the right ones as their complements. -/
theorem maskTables : Obligations.MaskTables := by
  obtain ⟨h0, h1, h2, h3, h4, h5, h6⟩ := leftMask_values
  refine ⟨fun l p _ hp => ?_, fun l _ => rightMask_complements l, h0, h1, h2, h3, h4, h5, h6, ?_⟩
  · rw [getLsbD_leftMask hp, decide_eq_true_eq]
  · simp only [rightMask, h0, h1, h2, h3, h4, h5, h6]
    decide

/-- Settles O42: at the level of K, bit `K*i + b` of a mask depends only on the parity of `i`. -/
theorem masksSelectLanes : Obligations.MasksSelectLanes :=
  fun _ v _ ht hi => ⟨lane_and_rightMask v ht hi, lane_and_leftMask v ht hi⟩

/-- Two fields side by side are one number. -/
theorem toNat_append_add {m n : Nat} (x : BitVec m) (y : BitVec n) :
    (x ++ y).toNat = x.toNat * 2 ^ n + y.toNat := by
  rw [BitVec.toNat_append, ← Nat.shiftLeft_add_eq_or_of_lt y.isLt, Nat.shiftLeft_eq]

/-- CFG as a number: NREG = 16, W/8 = 16 and QDEPTH, which fits in its byte, in the lower three bytes (R38). -/
theorem cfgWord_eq : cfgWord = BitVec.ofNat 32 (65536 * Config.qdepth + 0x1010) := by
  obtain ⟨-, hq⟩ := qdepth_bounds
  apply BitVec.eq_of_toNat_eq
  unfold cfgWord
  simp only [toNat_append_add, BitVec.toNat_ofNat]
  omega

/-- CTRL reads as FIE in bit 0 and 0 elsewhere (R36). -/
theorem State.ctrlWord_eq (s : State) : s.ctrlWord = if s.fie then 1 else 0 := by
  unfold State.ctrlWord
  cases s.fie <;> rfl

/-- A read of a readable register that need not wait completes with the register's word and changes nothing (R62, R69,
R78). -/
theorem State.hostRead_of_readPort {s : State} {bits off : Nat} {p : Port} {w : Word}
    (hp : selectPort bits off = some p) (hr : s.readPort p = some w) (hw : p.waitsForIdle = false ∨ s.idle = true) :
    s.hostRead bits off = .completes (.readData w) s := by
  have hnow : (p.waitsForIdle && !s.idle) = false := by rcases hw with h | h <;> simp [h]
  simp [State.hostRead, hp, hr, hnow]

/-- ID reads as 0x53570001 in every state (R37). -/
theorem State.hostRead_id (s : State) : s.hostRead 32 0x000 = .completes (.readData 0x53570001#32) s :=
  State.hostRead_of_readPort (p := .id) rfl rfl (.inl rfl)

/-- CFG reads as its constant word in every state (R38). -/
theorem State.hostRead_cfg (s : State) :
    s.hostRead 32 0x004 = .completes (.readData (BitVec.ofNat 32 (65536 * Config.qdepth + 0x1010))) s :=
  State.hostRead_of_readPort (p := .cfg) rfl (congrArg some cfgWord_eq) (.inl rfl)

/-- Settles O53: each offset selects its register, whose word is returned at once; SYNC's once the engine is idle. -/
theorem controlRegistersRead : Obligations.ControlRegistersRead := by
  intro s
  refine ⟨s.hostRead_id, s.hostRead_cfg, ?status, ?ctrl, ?fcmd, ?fidx, ?retired, fun hidle => ?sync⟩
  case status => exact State.hostRead_of_readPort (p := .status) rfl rfl (.inl rfl)
  case ctrl => exact State.hostRead_of_readPort (p := .ctrl) rfl (congrArg some s.ctrlWord_eq) (.inl rfl)
  case fcmd => exact State.hostRead_of_readPort (p := .fcmd) rfl rfl (.inl rfl)
  case fidx => exact State.hostRead_of_readPort (p := .fidx) rfl rfl (.inl rfl)
  case retired => exact State.hostRead_of_readPort (p := .retired) rfl rfl (.inl rfl)
  case sync => exact State.hostRead_of_readPort (p := .sync) rfl rfl (.inr hidle)

/-- STATUS reads 0 after reset: idle, no fault recorded, an empty queue (R35, R45). -/
theorem State.statusWord_reset : State.reset.statusWord = 0 := rfl

/-- Settles O43: the registers by `State.reg_reset`, ID and CFG by the reads that hold in every state, and the other
fields as `State.reset` writes them. -/
theorem resetValues : Obligations.ResetValues :=
  ⟨State.reg_reset, rfl, rfl, rfl, State.statusWord_reset, rfl, rfl, rfl, rfl, rfl, rfl, rfl, rfl, rfl, rfl,
    State.reset.hostRead_id, State.reset.hostRead_cfg⟩

end Sys2Proof.Machine

/-! The DATA, TAG and SYNC words of the host window: which accesses wait for idle (R69), and what the words of a register
read as and write (R64, R66, R67). -/

namespace Sys2Proof.Machine

/-- Only aligned 32-bit accesses reach a register (R62, R63). -/
theorem selectPort_eq_some_iff {bits off : Nat} {p : Port} :
    selectPort bits off = some p ↔ (bits = 32 ∧ off % 4 = 0) ∧ portAt off = some p := by
  rw [selectPort, Option.ite_none_right_eq_some]

/-- DATA[i] word j stands at offset 0x100 + 0x20 i + 4 j (R61). -/
theorem selectPort_data (i : RegIdx) (j : BitVec 2) :
    selectPort 32 (0x100 + 0x20 * i.toNat + 4 * j.toNat) = some (.data i j) := by
  have hi := i.isLt
  have hj := j.isLt
  have hrel : 0x100 + 0x20 * i.toNat + 4 * j.toNat - 0x100 = 0x20 * i.toNat + 4 * j.toNat := by omega
  have hreg : (0x20 * i.toNat + 4 * j.toNat) / 0x20 = i.toNat := by omega
  have hword : (0x20 * i.toNat + 4 * j.toNat) % 0x20 / 4 = j.toNat := by omega
  rw [selectPort, if_pos ⟨rfl, by omega⟩, portAt_above (by omega), if_pos (by omega), hrel, filePort,
    if_pos (by omega), hreg, hword, BitVec.ofNat_toNat, BitVec.ofNat_toNat, BitVec.setWidth_eq, BitVec.setWidth_eq]

/-- TAG[i] stands at offset 0x110 + 0x20 i (R61). -/
theorem selectPort_tag (i : RegIdx) : selectPort 32 (0x110 + 0x20 * i.toNat) = some (.tag i) := by
  have hi := i.isLt
  have hrel : 0x110 + 0x20 * i.toNat - 0x100 = 0x20 * i.toNat + 0x10 := by omega
  have hreg : (0x20 * i.toNat + 0x10) / 0x20 = i.toNat := by omega
  rw [selectPort, if_pos ⟨rfl, by omega⟩, portAt_above (by omega), if_pos (by omega), hrel, filePort,
    if_neg (by omega), if_pos (by omega), hreg, BitVec.ofNat_toNat, BitVec.setWidth_eq]

/-- A read waits exactly where the register it reaches waits for idle and the engine is not idle: CMD, which has no word
to read, does not wait either (R63, R69). -/
theorem State.hostRead_waits_iff {s : State} {bits off : Nat} {p : Port} (hp : selectPort bits off = some p) :
    s.hostRead bits off = .waits ↔ p.waitsForIdle = true ∧ s.idle = false := by
  cases hr : s.readPort p with
  | none =>
    have hcmd : p.waitsForIdle = false := by
      cases p with
      | cmd => rfl
      | _ => cases hr
    simp [State.hostRead, hp, hr, hcmd]
  | some w => simp [State.hostRead, hp, hr]

/-- No register below SYNC waits for idle (R61, R69). -/
theorem portAt_below_sync : ∀ off < 0x020, ∀ p ∈ portAt off, p.waitsForIdle = false := by decide

/-- Every read below SYNC is answered without waiting, whatever its width and alignment (R63, R69). -/
theorem State.hostRead_below_sync_ne_waits (s : State) (bits : Nat) {off : Nat} (hoff : off < 0x020) :
    s.hostRead bits off ≠ .waits := by
  cases hp : selectPort bits off with
  | none => simp [State.hostRead, hp]
  | some p =>
    obtain ⟨-, hat⟩ := selectPort_eq_some_iff.mp hp
    simp [State.hostRead_waits_iff hp, portAt_below_sync off hoff p hat]

/-- A DATA write waits until the engine is idle, then writes (R66, R69). -/
theorem State.hostWrite_data (s : State) (i : RegIdx) (j : BitVec 2) (v : Word) :
    s.hostWrite 32 (0x100 + 0x20 * i.toNat + 4 * j.toNat) v =
      if s.idle then .completes .writeDone (s.writeData i j v) else .waits := by
  rw [State.hostWrite, selectPort_data]

/-- A TAG write waits until the engine is idle, then writes (R67, R69). -/
theorem State.hostWrite_tag (s : State) (i : RegIdx) (v : Word) :
    s.hostWrite 32 (0x110 + 0x20 * i.toNat) v =
      if s.idle then .completes .writeDone (s.writeTag i v) else .waits := by
  rw [State.hostWrite, selectPort_tag]

/-- A CTRL write is done at once (R36, R69). -/
theorem State.hostWrite_ctrl (s : State) (v : Word) :
    s.hostWrite 32 0x00C v = .completes .writeDone (s.writeCtrl v) := rfl

/-- A write that is done once the engine is idle waits exactly while it is not (R69). -/
theorem ite_idle_eq_waits_iff (s s' : State) (r : Response) :
    (if s.idle then BusResult.completes r s' else .waits) = .waits ↔ s.idle = false := by
  cases s.idle <;> simp

/-- Settles O48: each offset selects its register, of which DATA, TAG and SYNC wait for idle, the registers below SYNC do
not, and CTRL is written at once. -/
theorem accessesWaitForIdle : Obligations.AccessesWaitForIdle := by
  intro s i j v
  have hread {off : Nat} {p : Port} (hp : selectPort 32 off = some p) (hw : p.waitsForIdle = true) :
      s.hostRead 32 off = .waits ↔ s.idle = false := by
    rw [State.hostRead_waits_iff hp, hw, eq_self, true_and]
  refine ⟨hread (selectPort_data i j) rfl, ?dataWrite, hread (selectPort_tag i) rfl, ?tagWrite,
    hread (p := .sync) rfl rfl, fun off hoff => s.hostRead_below_sync_ne_waits 32 hoff, ?ctrlWrite, ?faulted⟩
  case dataWrite => rw [State.hostWrite_data, ite_idle_eq_waits_iff]
  case tagWrite => rw [State.hostWrite_tag, ite_idle_eq_waits_iff]
  case ctrlWrite => simp [State.hostWrite_ctrl]
  case faulted =>
    rintro ⟨-, hidle, -⟩
    exact hidle

/-- The byte at offset `b` of the word at an aligned offset is byte `b` of that word (R64). -/
theorem State.windowByte_of_readPort {s : State} {off : Nat} {p : Port} {w : Word} (b : BitVec 2)
    (hp : selectPort 32 off = some p) (hr : s.readPort p = some w) :
    s.windowByte (off + b.toNat) = some (wordByte w b.toNat) := by
  have hb := b.isLt
  obtain ⟨⟨-, haligned⟩, -⟩ := selectPort_eq_some_iff.mp hp
  have hbyte : (off + b.toNat) % 4 = b.toNat := by omega
  rw [State.windowByte, hbyte, Nat.add_sub_cancel, hp]
  simp only [hr, Option.map_some]

/-- Byte `b` of DATA word `j` is 8 bits of the register (R64). -/
theorem wordByte_dataWord (x : Scalar) (j b : BitVec 2) :
    wordByte (dataWord x j) b.toNat = x.extractLsb' (32 * j.toNat + 8 * b.toNat) 8 := by
  ext q hq
  have hb := b.isLt
  have hbit : 8 * b.toNat + q < 32 := by omega
  simp [wordByte, dataWord, hbit, Nat.add_assoc]

/-- Settles O49: the bytes of a DATA word are those of its register, a read returns the word, and a write replaces the
word's bits by `getLsbD_setDataWord` and touches no other register. -/
theorem dataWordsReadAndWrite : Obligations.DataWordsReadAndWrite := by
  intro s i j b v
  refine ⟨?byte, fun hbusy => ?waits, fun hidle => ⟨?read, ?write⟩⟩
  case byte => rw [s.windowByte_of_readPort b (selectPort_data i j) rfl, wordByte_dataWord]
  case waits =>
    exact ⟨(State.hostRead_waits_iff (selectPort_data i j)).mpr ⟨rfl, hbusy⟩, by
      rw [State.hostWrite_data, ite_idle_eq_waits_iff, hbusy]⟩
  case read => exact State.hostRead_of_readPort (selectPort_data i j) rfl (.inr hidle)
  case write =>
    exact ⟨s.writeData i j v, setDataWord (s.reg i).data j v, by rw [State.hostWrite_data, if_pos hidle], rfl,
      s.reg_setReg_self .., fun _ hr => s.reg_setReg_ne _ hr, fun _ hp => getLsbD_setDataWord _ j v hp⟩

/-- TAG as a number: valid in bit 4 and the tag below it (R67). -/
theorem toNat_tagWord (d : DataReg) : (tagWord d).toNat = (if d.valid then 16 else 0) + d.tag.toNat := by
  have htag := d.tag.isLt
  have hvalid : (BitVec.ofBool d.valid).toNat * 2 ^ 4 = if d.valid then 16 else 0 := by cases d.valid <;> rfl
  rw [tagWord, BitVec.toNat_setWidth, toNat_append_add, hvalid]
  exact Nat.mod_eq_of_lt (by split <;> omega)

/-- Settles O50: a read returns `tagWord`, a write replaces the tag and valid of its register and nothing else. -/
theorem tagWordReadsAndWrites : Obligations.TagWordReadsAndWrites := by
  intro s i v
  refine ⟨fun hbusy => ?waits, fun hidle => ⟨?read, ?write⟩⟩
  case waits =>
    exact ⟨(State.hostRead_waits_iff (selectPort_tag i)).mpr ⟨rfl, hbusy⟩, by
      rw [State.hostWrite_tag, ite_idle_eq_waits_iff, hbusy]⟩
  case read =>
    exact ⟨tagWord (s.reg i), State.hostRead_of_readPort (selectPort_tag i) rfl (.inr hidle), toNat_tagWord _⟩
  case write =>
    have hreg : (s.writeTag i v).reg i = { s.reg i with tag := v.extractLsb' 0 4, valid := v.getLsbD 4 } :=
      s.reg_setReg_self ..
    refine ⟨s.writeTag i v, by rw [State.hostWrite_tag, if_pos hidle], rfl, ?_, by rw [hreg], by rw [hreg],
      fun _ hr => s.reg_setReg_ne _ hr⟩
    rw [hreg]
    exact BitVec.extractLsb'_toNat ..

end Sys2Proof.Machine

/-! Illegal words (R95): a word that decodes meets every condition of its op's row of R94, so an illegal word does not
decode, and executing it is the ILLEGAL fault entry (R224). -/

namespace Sys2Proof.Machine

/-- No two rows of R94 have one op. -/
theorem opTable_op_injective : ∀ row ∈ opTable, ∀ row' ∈ opTable, row.op = row'.op → row = row' := by decide

/-- A word is legal if its op has a row that does not reject it: its op has no other row. -/
theorem not_illegalWord_of_row {w : Word} {row : OpRow} (hmem : row ∈ opTable) (hop : (opField w).toNat = row.op)
    (haccepts : ¬RowRejects row w) : ¬IllegalWord w := by
  rw [opField, extract_toNat] at hop
  rintro (hnone | ⟨row', hmem', hop', hrejects⟩)
  · exact hnone row hmem hop.symm
  · rw [opTable_op_injective row' hmem' row hmem (hop'.trans hop)] at hrejects
    exact haccepts hrejects

/-- The conditions of R95 on a row, by the fields of the word. -/
theorem rowRejects_iff (row : OpRow) (w : Word) :
    RowRejects row w ↔
      (tField w).toNat < row.tMin ∨ row.tMax < (tField w).toNat ∨ (row.usesRs2 = false ∧ rs2Field w ≠ 0#4) ∨
      (row.usesRd2 = false ∧ rd2Field w ≠ 0#4) ∨ zField w ≠ 0#4 ∨
      (row.usesRd2 = true ∧ rdField w = rd2Field w) := by
  simp only [RowRejects, ← BitVec.toNat_inj, ne_eq, tField, rdField, rs2Field, rd2Field, zField, extract_toNat,
    BitVec.toNat_ofNat, Nat.zero_mod]

/-- The lane-width tags as a range of R94's column "legal t". -/
theorem isLane_bounds {t : Tag} (h : Tag.isLane t = true) : 0 ≤ t.toNat ∧ t.toNat ≤ 7 :=
  ⟨Nat.zero_le _, of_decide_eq_true h⟩

/-- The narrow tags as a range of R94's column "legal t". -/
theorem isNarrow_bounds {t : Tag} (h : Tag.isNarrow t = true) : 0 ≤ t.toNat ∧ t.toNat ≤ 6 :=
  ⟨Nat.zero_le _, of_decide_eq_true h⟩

/-- The overflow-tracking tags as a range of R94's column "legal t". -/
theorem isOverflow_bounds {t : Tag} (h : Tag.isOverflow t = true) : 8 ≤ t.toNat ∧ t.toNat ≤ 14 := by
  simpa [Tag.isOverflow] using h

/-- The tags other than RAW, which UNWRAP takes, as a range of R94's column "legal t". -/
theorem notRaw_bounds {t : Tag} (h : decide (t.toNat ≤ 14) = true) : 0 ≤ t.toNat ∧ t.toNat ≤ 14 :=
  ⟨Nat.zero_le _, of_decide_eq_true h⟩

/-- All sixteen tags as a range of R94's column "legal t". -/
theorem tag_bounds (t : Tag) : 0 ≤ t.toNat ∧ t.toNat ≤ 15 := ⟨Nat.zero_le _, Nat.le_of_lt_succ t.isLt⟩

/-- A command accepted by the last check of the decoder has a legal tag and different destinations. -/
theorem legal_of_checkLegal_ok {i j : Instr} (h : checkLegal i = .ok j) :
    i.tagLegal = true ∧ i.destinationsDiffer = true := by
  obtain ⟨rfl, hwf⟩ := checkLegal_ok h
  exact Bool.and_eq_true_iff.mp hwf

section Shapes

variable {w : Word} {i : Instr} {op : Nat}

/-- A word that decodes as a command of one source is legal, if R94 has its op with the legal tags of the command. -/
theorem not_illegalWord_of_decodeUnary (mk : Tag → RegIdx → RegIdx → Instr) (lo hi : Nat)
    (htag : ∀ t rd rs1, (mk t rd rs1).tagLegal = true → lo ≤ t.toNat ∧ t.toNat ≤ hi)
    (hmem : ⟨op, lo, hi, false, false⟩ ∈ opTable) (hop : (opField w).toNat = op) (hz : zField w = 0#4)
    (h : decodeUnary w mk = .ok i) : ¬IllegalWord w := by
  unfold decodeUnary at h
  split at h
  · next hunused =>
    obtain ⟨htLegal, -⟩ := legal_of_checkLegal_ok h
    obtain ⟨hmin, hmax⟩ := htag _ _ _ htLegal
    exact not_illegalWord_of_row hmem hop (by simp [rowRejects_iff, hz, hunused, hmin, hmax])
  · cases h

/-- A word that decodes as a command of two destinations is legal, if R94 has its op with the legal tags of the command,
and the command's destinations have to differ. -/
theorem not_illegalWord_of_decodePair (mk : Tag → RegIdx → RegIdx → RegIdx → Instr) (lo hi : Nat)
    (htag : ∀ t rd rd2 rs1, (mk t rd rd2 rs1).tagLegal = true → lo ≤ t.toNat ∧ t.toNat ≤ hi)
    (hdiffer : ∀ t rd rd2 rs1, (mk t rd rd2 rs1).destinationsDiffer = decide (rd ≠ rd2))
    (hmem : ⟨op, lo, hi, false, true⟩ ∈ opTable) (hop : (opField w).toNat = op) (hz : zField w = 0#4)
    (h : decodePair w mk = .ok i) : ¬IllegalWord w := by
  unfold decodePair at h
  split at h
  · next hunused =>
    obtain ⟨htLegal, hne⟩ := legal_of_checkLegal_ok h
    obtain ⟨hmin, hmax⟩ := htag _ _ _ _ htLegal
    rw [hdiffer, decide_eq_true_eq] at hne
    exact not_illegalWord_of_row hmem hop (by simp [rowRejects_iff, hz, hunused, hmin, hmax, hne])
  · cases h

/-- A word that decodes as a command of two sources is legal, if R94 has its op with the legal tags of the command. -/
theorem not_illegalWord_of_decodeBinary (mk : Tag → RegIdx → RegIdx → RegIdx → Instr) (lo hi : Nat)
    (htag : ∀ t rd rs1 rs2, (mk t rd rs1 rs2).tagLegal = true → lo ≤ t.toNat ∧ t.toNat ≤ hi)
    (hmem : ⟨op, lo, hi, true, false⟩ ∈ opTable) (hop : (opField w).toNat = op) (hz : zField w = 0#4)
    (h : decodeBinary w mk = .ok i) : ¬IllegalWord w := by
  unfold decodeBinary at h
  split at h
  · next hunused =>
    obtain ⟨htLegal, -⟩ := legal_of_checkLegal_ok h
    obtain ⟨hmin, hmax⟩ := htag _ _ _ _ htLegal
    exact not_illegalWord_of_row hmem hop (by simp [rowRejects_iff, hz, hunused, hmin, hmax])
  · cases h

end Shapes

/-- A word that the opcode map accepts is legal: one line for each row of R94, with its shape and its legal tags. -/
theorem not_illegalWord_of_decodeOp {w : Word} {i : Instr} (hz : zField w = 0#4) (h : decodeOp w = .ok i) :
    ¬IllegalWord w := by
  unfold decodeOp at h
  split at h <;> rename_i hop
  · exact not_illegalWord_of_decodeUnary .wrap 0 7 (fun _ _ _ => isLane_bounds) (by decide) hop hz h
  · exact not_illegalWord_of_decodeUnary .unwrap 0 14 (fun _ _ _ => notRaw_bounds) (by decide) hop hz h
  · exact not_illegalWord_of_decodeUnary .bcast 0 7 (fun _ _ _ => isLane_bounds) (by decide) hop hz h
  · exact not_illegalWord_of_decodeUnary .any 0 7 (fun _ _ _ => isLane_bounds) (by decide) hop hz h
  · exact not_illegalWord_of_decodeUnary .popc 0 7 (fun _ _ _ => isLane_bounds) (by decide) hop hz h
  · exact not_illegalWord_of_decodePair .split 0 6 (fun _ _ _ _ => isNarrow_bounds) (fun _ _ _ _ => rfl) (by decide)
      hop hz h
  · exact not_illegalWord_of_decodeBinary .merge 0 6 (fun _ _ _ _ => isNarrow_bounds) (by decide) hop hz h
  · exact not_illegalWord_of_decodePair .halve 0 6 (fun _ _ _ _ => isNarrow_bounds) (fun _ _ _ _ => rfl) (by decide)
      hop hz h
  · exact not_illegalWord_of_decodeBinary .union 0 6 (fun _ _ _ _ => isNarrow_bounds) (by decide) hop hz h
  · exact not_illegalWord_of_decodeUnary .squash 0 6 (fun _ _ _ => isNarrow_bounds) (by decide) hop hz h
  · exact not_illegalWord_of_decodeUnary .sumw2 0 6 (fun _ _ _ => isNarrow_bounds) (by decide) hop hz h
  · exact not_illegalWord_of_decodeUnary .sumw 0 7 (fun _ _ _ => isLane_bounds) (by decide) hop hz h
  · exact not_illegalWord_of_decodeBinary .add 0 7 (fun _ _ _ _ => isLane_bounds) (by decide) hop hz h
  · exact not_illegalWord_of_decodeBinary .minhwd 0 7 (fun _ _ _ _ => isLane_bounds) (by decide) hop hz h
  · exact not_illegalWord_of_decodeBinary .maxhwd 0 7 (fun _ _ _ _ => isLane_bounds) (by decide) hop hz h
  · exact not_illegalWord_of_decodeUnary .tox 8 14 (fun _ _ _ => isOverflow_bounds) (by decide) hop hz h
  · exact not_illegalWord_of_decodeUnary .fromx 8 14 (fun _ _ _ => isOverflow_bounds) (by decide) hop hz h
  · exact not_illegalWord_of_decodeBinary .cmpeq 0 15 (fun t _ _ _ _ => tag_bounds t) (by decide) hop hz h
  · exact not_illegalWord_of_decodeBinary .cmpltu 0 15 (fun t _ _ _ _ => tag_bounds t) (by decide) hop hz h
  · cases h

/-- A word that decodes is legal (R95). -/
theorem not_illegalWord_of_decode_ok {w : Word} {i : Instr} (h : decode w = .ok i) : ¬IllegalWord w := by
  unfold decode at h
  split at h
  · next hz => exact not_illegalWord_of_decodeOp hz h
  · cases h

/-- Executing an illegal word raises ILLEGAL with FOPND 0 (R95, R224). -/
theorem State.executeWord_of_illegalWord (s : State) {w : Word} (h : IllegalWord w) :
    s.executeWord w = .next (s.raiseFault .illegal false) := by
  cases hd : decode w with
  | ok i => exact absurd h (not_illegalWord_of_decode_ok hd)
  | error e => simp [State.executeWord, hd]

/-- The step of an engine about to execute a word executes it, on the state after the step's arbitration (R71). -/
theorem State.AboutToExecute.step_eq {s : State} {w : Word} (h : s.AboutToExecute w) :
    step s = s.arbitrated.executeWord w := by
  obtain ⟨hexecuting, -, hmove⟩ := h
  simp [step_engine hmove, State.engineMove, hexecuting]

/-- Settles O7: the step executes the word, which is the fault entry, and that leaves registers and RETIRED. -/
theorem illegalWordRaisesIllegal : Obligations.IllegalWordRaisesIllegal := by
  intro s w habout hillegal
  have hstep : step s = .next (s.arbitrated.raiseFault .illegal false) :=
    habout.step_eq.trans (s.arbitrated.executeWord_of_illegalWord hillegal)
  obtain ⟨hexecuting, -, -⟩ := habout
  have hword : s.arbitrated.executingWord = w := by simp [State.executingWord, hexecuting]
  exact ⟨_, hstep, State.faultEntry_raiseFault .., rfl, rfl, hword, fun r => by simp [State.reg],
    s.arbitrated_retired⟩

end Sys2Proof.Machine

/-! The checks of a command in the order of R226: what running a command answers, by the first of them that fails. -/

namespace Sys2Proof.Machine

/-- `out` is what a command with these sources answers from `s`: ILLEGAL where it is not legal; else the first operand
check that fails, in the order of R226; else it retires (R96, R220). -/
structure State.ChecksInOrder (s : State) (legal : Bool) (sources : List (RegIdx × Tag))
    (out : Host.Outcome State Fault Refusal) : Prop where
  illegal : legal = false → out = .next (s.raiseFault .illegal false)
  failing : ∀ c o, legal = true → firstFailure s false sources = some (c, o) → out = .next (s.raiseFault c o)
  retiring : legal = true → firstFailure s false sources = none → ∃ s', out = .next s' ∧ s.Retired s'

/-- Running a command makes the checks of its sources in order, if its operands are read by those checks and its effect
changes only the register file. -/
theorem runCommand_checksInOrder {α : Type} {legal : Bool} {sources : List (RegIdx × Tag)}
    {operands : Except OperandFault α} {effect : α → State → State} {s : State}
    (herror : ∀ c o, firstFailure s false sources = some (c, o) → operands = .error ⟨c, o⟩)
    (hok : firstFailure s false sources = none → ∃ a, operands = .ok a)
    (heffect : ∀ a, s.Retired (effect a s).retire) :
    s.ChecksInOrder legal sources (runCommand legal operands effect s) where
  illegal hlegal := by rw [hlegal]; rfl
  failing c o hlegal hfails := by rw [hlegal, herror c o hfails]; rfl
  retiring hlegal hnone := by
    obtain ⟨a, ha⟩ := hok hnone
    rw [hlegal, ha]
    exact ⟨_, rfl, heffect a⟩

/-- A command of one source checks that source. -/
theorem runCommand_readOne_checksInOrder {legal : Bool} {s : State} {r : RegIdx} {t : Tag}
    {effect : Scalar → State → State} (heffect : ∀ a, s.Retired (effect a s).retire) :
    s.ChecksInOrder legal [(r, t)] (runCommand legal (s.readOne r t) effect s) :=
  runCommand_checksInOrder (fun c o h => by rw [s.readOne_eq, h]) (fun h => ⟨_, by rw [s.readOne_eq, h]⟩) heffect

/-- A command of two sources checks rs1, then rs2. -/
theorem runCommand_readTwo_checksInOrder {legal : Bool} {s : State} {r₁ r₂ : RegIdx} {t : Tag}
    {effect : Scalar × Scalar → State → State} (heffect : ∀ p, s.Retired (effect p s).retire) :
    s.ChecksInOrder legal [(r₁, t), (r₂, t)] (runCommand legal (s.readTwo r₁ r₂ t) effect s) :=
  runCommand_checksInOrder (fun c o h => by rw [s.readTwo_eq, h]) (fun h => ⟨_, by rw [s.readTwo_eq, h]⟩) heffect

/-- Every command checks the sources R94 lists for it, and its effect is to write its destinations. -/
theorem exec_checksInOrder (i : Instr) (s : State) : s.ChecksInOrder i.wellFormed (sourcesOf i) (exec i s) := by
  cases i with
  | wrap | unwrap | bcast | any | popc | split | halve | squash | sumw2 | sumw | tox | fromx =>
    apply runCommand_readOne_checksInOrder
    exact fun _ => rfl
  | merge | union | add | minhwd | maxhwd | cmpeq | cmpltu =>
    apply runCommand_readTwo_checksInOrder
    exact fun _ => rfl

/-- Settles O10: each answer of `exec_checksInOrder`, the faults with their fault entry. -/
theorem firstFailingCheckIsReported : Obligations.FirstFailingCheckIsReported := by
  intro i s
  obtain ⟨hillegal, hfailing, hretiring⟩ := exec_checksInOrder i s
  exact ⟨fun hwf => ⟨_, hillegal hwf, s.faultEntry_raiseFault ..⟩,
    fun c o hwf hfails => ⟨_, hfailing c o hwf hfails, s.faultEntry_raiseFault ..⟩, hretiring⟩

end Sys2Proof.Machine

/-! The clauses that the results of the commands share: the faults of a command by its legality, and the retirement of a
command that reads one source and writes one destination (R95, R96, R220). -/

namespace Sys2Proof.Machine

/-- A command whose destinations cannot clash is legal exactly when its tag is (R95). -/
theorem wellFormed_iff_of_tagLegal {i : Instr} {legal : Prop} [Decidable legal] (htag : i.tagLegal = decide legal)
    (hdiffer : i.destinationsDiffer = true) : i.wellFormed = true ↔ legal := by
  rw [Instr.wellFormed, htag, hdiffer, Bool.and_true, decide_eq_true_iff]

/-- Every command raises the faults of the sources R94 lists for it, whatever names its legality (R95, R226). -/
theorem raisesFaults_of_wellFormed_iff {i : Instr} {legal : Prop} (s : State) (hwf : i.wellFormed = true ↔ legal) :
    RaisesFaults i s legal (sourcesOf i) := by
  obtain ⟨hillegal, hfailing, -⟩ := firstFailingCheckIsReported i s
  refine ⟨fun hnot => hillegal ?_, fun c o hlegal hfails => hfailing c o (hwf.mpr hlegal) hfails⟩
  rwa [← hwf, Bool.not_eq_true] at hnot

/-- A legal command of one source that can be read writes the value of that source to its one destination and retires. -/
theorem runCommand_one_retiredWriting {legal : Bool} {s : State} {rd rs1 : RegIdx} {want tag : Tag}
    (value : Scalar → Scalar) (hlegal : legal = true) (hholds : s.Holds rs1 want) :
    ∃ s', runCommand legal (s.readOne rs1 want) (fun a s => s.put rd (value a) tag) s = .next s' ∧
      s.RetiredWriting s' rd ⟨true, tag, value (s.reg rs1).data⟩ :=
  ⟨_, runCommand_one _ hlegal hholds, s.retiredWriting_put ..⟩

end Sys2Proof.Machine

/-! The commands between scalars and lane types: WRAP, UNWRAP, BCAST, ANY, POPC (R120 to R124). -/

namespace Sys2Proof.Machine

/-- The bits of BCAST's value: the OR of the copies of `e` shifted up by whole lanes (R122). -/
theorem getLsbD_broadcast (K : Nat) (e : Scalar) {p : Nat} (hp : p < 128) :
    (broadcast K e).getLsbD p = true ↔ ∃ j, j < 128 / K ∧ K * j ≤ p ∧ e.getLsbD (p - K * j) = true := by
  simp only [broadcast, getLsbD_orUpTo, BitVec.getLsbD_shiftLeft, hp, decide_true, Bool.true_and, Bool.and_eq_true,
    Bool.not_eq_true', decide_eq_false_iff_not, Nat.not_lt]

/-- Copies of a number that fits in a lane do not overlap: BCAST packs it into every lane (R122). -/
theorem broadcast_eq_pack {K : Nat} {e : Scalar} (he : e.toNat < 2 ^ K) :
    broadcast K e = pack K (128 / K) fun _ => e.toNat := by
  simp [broadcast, pack, Nat.mod_eq_of_lt he]

/-- BCAST's lanes, where the number fits in a lane (R122). -/
theorem lane_broadcast {K j : Nat} {e : Scalar} (he : e.toNat < 2 ^ K) (hj : j < 128 / K) :
    lane K (broadcast K e) j = e.toNat := by
  rw [broadcast_eq_pack he, lane_pack _ (lane_fits hj), if_pos hj, Nat.mod_eq_of_lt he]

/-- A population count fits in a RAW scalar (R124). -/
theorem toNat_ofNat_popcount (v : Scalar) : (BitVec.ofNat 128 (popcount v)).toNat = popcount v := by
  rw [BitVec.toNat_ofNat]
  exact Nat.mod_eq_of_lt ((popcount_le v).trans_lt (by norm_num))

/-- Settles O15: the value written is the source's own. -/
theorem wrapResult : Obligations.WrapResult := by
  intro s t rd rs1
  have hwf : (Instr.wrap t rd rs1).wellFormed = true ↔ t.toNat ≤ 7 := wellFormed_iff_of_tagLegal rfl rfl
  exact ⟨hasFields_formatC .., raisesFaults_of_wellFormed_iff s hwf,
    fun ht hholds => runCommand_one_retiredWriting id (hwf.mpr ht) hholds⟩

/-- Settles O16: the value written is the source's own, for the overflow-tracking tags too. -/
theorem unwrapResult : Obligations.UnwrapResult := by
  intro s t rd rs1
  have hwf : (Instr.unwrap t rd rs1).wellFormed = true ↔ t.toNat ≤ 14 := wellFormed_iff_of_tagLegal rfl rfl
  exact ⟨hasFields_formatC .., raisesFaults_of_wellFormed_iff s hwf,
    fun ht hholds => runCommand_one_retiredWriting id (hwf.mpr ht) hholds⟩

/-- Settles O17: the value written is `broadcast`, whose bits are those of the shifted copies for every source, and whose
lanes are the source where it fits in one. -/
theorem bcastResult : Obligations.BcastResult := by
  intro s t rd rs1
  have hwf : (Instr.bcast t rd rs1).wellFormed = true ↔ t.toNat ≤ 7 := wellFormed_iff_of_tagLegal rfl rfl
  refine ⟨hasFields_formatC .., raisesFaults_of_wellFormed_iff s hwf, fun ht hholds => ?_⟩
  obtain ⟨s', hexec, hwrites⟩ := runCommand_one_retiredWriting (broadcast (laneWidth t)) (hwf.mpr ht) hholds
  exact ⟨s', _, hexec, hwrites, fun _ hp => getLsbD_broadcast _ _ hp, fun he _ hj => lane_broadcast he hj⟩

/-- Settles O18: the value written is `anyValue`, lane by lane. -/
theorem anyResult : Obligations.AnyResult := by
  intro s t rd rs1
  have hwf : (Instr.any t rd rs1).wellFormed = true ↔ t.toNat ≤ 7 := wellFormed_iff_of_tagLegal rfl rfl
  refine ⟨hasFields_formatC .., raisesFaults_of_wellFormed_iff s hwf, fun ht hholds => ?_⟩
  obtain ⟨s', hexec, hwrites⟩ := runCommand_one_retiredWriting (anyValue (laneWidth t)) (hwf.mpr ht) hholds
  refine ⟨s', _, hexec, hwrites, fun j hj => ?_⟩
  rw [ite_not]
  exact lane_anyValue _ (laneWidth_pos t) hj

/-- Settles O19: the value written is the population count, which does not overflow and counts all positions. -/
theorem popcResult : Obligations.PopcResult := by
  intro s t rd rs1
  have hwf : (Instr.popc t rd rs1).wellFormed = true ↔ t.toNat ≤ 7 := wellFormed_iff_of_tagLegal rfl rfl
  refine ⟨hasFields_formatC .., raisesFaults_of_wellFormed_iff s hwf, fun ht hholds => ?_⟩
  obtain ⟨s', hexec, hwrites⟩ :=
    runCommand_one_retiredWriting (fun a => BitVec.ofNat 128 (popcount a)) (hwf.mpr ht) hholds
  exact ⟨s', _, hexec, hwrites, (toNat_ofNat_popcount _).trans (popcount_eq _)⟩

end Sys2Proof.Machine

/-! The clauses shared by the commands with two destinations or two sources: legality, and the retirement that writes the
results (R95, R96, R220). -/

namespace Sys2Proof.Machine

/-- A command of two destinations is legal exactly when its tag is and the destinations differ (R95). -/
theorem wellFormed_iff_of_destinationsDiffer {i : Instr} {legal differ : Prop} [Decidable legal] [Decidable differ]
    (htag : i.tagLegal = decide legal) (hdiffer : i.destinationsDiffer = decide differ) :
    i.wellFormed = true ↔ legal ∧ differ := by
  rw [Instr.wellFormed, htag, hdiffer, Bool.and_eq_true, decide_eq_true_iff, decide_eq_true_iff]

/-- A legal command of one source that can be read writes two values of that source to its two destinations, together,
and retires (R26). -/
theorem runCommand_one_retiredWritingTwo {legal : Bool} {s : State} {rd rd2 rs1 : RegIdx} {want tag : Tag}
    (value value2 : Scalar → Scalar) (hlegal : legal = true) (hne : rd ≠ rd2) (hholds : s.Holds rs1 want) :
    ∃ s', runCommand legal (s.readOne rs1 want)
        (fun a s => (s.put rd (value a) tag).put rd2 (value2 a) tag) s = .next s' ∧
      s.RetiredWritingTwo s' rd ⟨true, tag, value (s.reg rs1).data⟩ rd2 ⟨true, tag, value2 (s.reg rs1).data⟩ :=
  ⟨_, runCommand_one _ hlegal hholds, s.retiredWritingTwo_put hne ..⟩

/-- A legal command of two sources that can be read writes a value of them to its one destination and retires. -/
theorem runCommand_two_retiredWriting {legal : Bool} {s : State} {rd rs1 rs2 : RegIdx} {want tag : Tag}
    (value : Scalar → Scalar → Scalar) (hlegal : legal = true) (h₁ : s.Holds rs1 want) (h₂ : s.Holds rs2 want) :
    ∃ s', runCommand legal (s.readTwo rs1 rs2 want) (fun p s => s.put rd (value p.1 p.2) tag) s = .next s' ∧
      s.RetiredWriting s' rd ⟨true, tag, value (s.reg rs1).data (s.reg rs2).data⟩ :=
  ⟨_, runCommand_two _ hlegal h₁ h₂, s.retiredWriting_put ..⟩

end Sys2Proof.Machine

/-! The commands between lanes and double lanes: SPLIT, MERGE, HALVE, UNION, SQUASH (R140 to R146). -/

namespace Sys2Proof.Machine

/-- A lane of a 64-bit half lies within the half. -/
theorem lane_fits_half {K j : Nat} (hj : j < 64 / K) : K * j + K ≤ 64 :=
  calc K * j + K = K * (j + 1) := (Nat.mul_succ K j).symm
    _ ≤ K * (64 / K) := Nat.mul_le_mul_left K hj
    _ ≤ 64 := Nat.mul_div_le 64 K

/-- The lanes of HALVE's rd: those of the upper 64 bits, from lane `64/K` on (R144). -/
theorem lane_halveLeft {t : Tag} (a : Scalar) (ht : t.toNat ≤ 6) {j : Nat} (hj : j < 64 / 2 ^ t.toNat) :
    lane (2 * laneWidth t) (halveLeft (laneWidth t) a) j = lane (laneWidth t) a (64 / 2 ^ t.toNat + j) := by
  have hcount : laneWidth t * (64 / 2 ^ t.toNat) = 64 := by
    obtain ⟨n, -, -, hall, hhalf⟩ := laneCounts ht
    rw [hhalf]
    linarith
  rw [halveLeft, lane_spread _ ht hj, lane_extract_half _ _ _ _ _ hcount (lane_fits_half hj)]

/-- The lanes of HALVE's rd2: those of the lower 64 bits, from lane 0 on (R144). -/
theorem lane_halveRight {t : Tag} (a : Scalar) (ht : t.toNat ≤ 6) {j : Nat} (hj : j < 64 / 2 ^ t.toNat) :
    lane (2 * laneWidth t) (halveRight (laneWidth t) a) j = lane (laneWidth t) a j := by
  rw [halveRight, lane_spread _ ht hj,
    lane_extract_half (laneWidth t) _ _ 0 _ (Nat.mul_zero _) (lane_fits_half hj), Nat.zero_add]

/-- The upper 64 bits of SQUASH's value are 0 (R146). -/
theorem toNat_squashValue_lt (K : Nat) (y : Scalar) : (squashValue K y).toNat < 2 ^ 64 := by
  rw [squashValue, BitVec.toNat_setWidth_of_le (by norm_num)]
  exact (compact K y).isLt

/-- Settles O20: the values written are `splitHigh` and `splitLow`, lane by lane. -/
theorem splitResult : Obligations.SplitResult := by
  intro s t rd rd2 rs1
  have hwf : (Instr.split t rd rd2 rs1).wellFormed = true ↔ t.toNat ≤ 6 ∧ rd ≠ rd2 :=
    wellFormed_iff_of_destinationsDiffer rfl rfl
  refine ⟨hasFields_formatC .., raisesFaults_of_wellFormed_iff s hwf, fun ht hne hholds => ?_⟩
  obtain ⟨s', hexec, hwrites⟩ :=
    runCommand_one_retiredWritingTwo (splitHigh t) (splitLow t) (hwf.mpr ⟨ht, hne⟩) hne hholds
  exact ⟨s', _, _, hexec, hwrites, fun _ hj => ⟨lane_splitHigh _ ht hj, lane_splitLow _ ht hj⟩⟩

/-- Settles O21: the value written is `mergeValue`, whose lanes are the low halves of the double lanes of its sources. -/
theorem mergeResult : Obligations.MergeResult := by
  intro s t rd rs1 rs2
  have hwf : (Instr.merge t rd rs1 rs2).wellFormed = true ↔ t.toNat ≤ 6 := wellFormed_iff_of_tagLegal rfl rfl
  refine ⟨hasFields_formatC .., raisesFaults_of_wellFormed_iff s hwf, fun ht h₁ h₂ => ?_⟩
  obtain ⟨s', hexec, hwrites⟩ := runCommand_two_retiredWriting (mergeValue t) (hwf.mpr ht) h₁ h₂
  refine ⟨s', _, hexec, hwrites, fun j hj => ?_⟩
  rw [lane_double_mod, lane_double_mod]
  exact ⟨lane_mergeValue_odd _ _ ht hj, lane_mergeValue_even _ _ ht hj⟩

/-- Settles O22: the values written are `halveLeft` and `halveRight`, lane by lane. -/
theorem halveResult : Obligations.HalveResult := by
  intro s t rd rd2 rs1
  have hwf : (Instr.halve t rd rd2 rs1).wellFormed = true ↔ t.toNat ≤ 6 ∧ rd ≠ rd2 :=
    wellFormed_iff_of_destinationsDiffer rfl rfl
  refine ⟨hasFields_formatC .., raisesFaults_of_wellFormed_iff s hwf, fun ht hne hholds => ?_⟩
  obtain ⟨s', hexec, hwrites⟩ := runCommand_one_retiredWritingTwo (halveLeft (laneWidth t)) (halveRight (laneWidth t))
    (hwf.mpr ⟨ht, hne⟩) hne hholds
  exact ⟨s', _, _, hexec, hwrites, fun _ hj => ⟨lane_halveLeft _ ht hj, lane_halveRight _ ht hj⟩⟩

/-- Settles O23: the value written is `unionValue`, whose lanes are the low halves of the double lanes of its sources. -/
theorem unionResult : Obligations.UnionResult := by
  intro s t rd rs1 rs2
  have hwf : (Instr.union t rd rs1 rs2).wellFormed = true ↔ t.toNat ≤ 6 := wellFormed_iff_of_tagLegal rfl rfl
  refine ⟨hasFields_formatC .., raisesFaults_of_wellFormed_iff s hwf, fun ht h₁ h₂ => ?_⟩
  obtain ⟨s', hexec, hwrites⟩ := runCommand_two_retiredWriting (unionValue (laneWidth t)) (hwf.mpr ht) h₁ h₂
  refine ⟨s', _, hexec, hwrites, fun j hj => ?_⟩
  rw [lane_double_mod, lane_double_mod]
  exact ⟨lane_unionValue_high _ _ ht hj, lane_unionValue_low _ _ ht hj⟩

/-- Settles O24: the value written is `squashValue`, which fits in 64 bits and has the compacted lanes. -/
theorem squashResult : Obligations.SquashResult := by
  intro s t rd rs1
  have hwf : (Instr.squash t rd rs1).wellFormed = true ↔ t.toNat ≤ 6 := wellFormed_iff_of_tagLegal rfl rfl
  refine ⟨hasFields_formatC .., raisesFaults_of_wellFormed_iff s hwf, fun ht hholds => ?_⟩
  obtain ⟨s', hexec, hwrites⟩ := runCommand_one_retiredWriting (squashValue (laneWidth t)) (hwf.mpr ht) hholds
  refine ⟨s', _, hexec, hwrites, toNat_squashValue_lt .., fun j hj => ?_⟩
  rw [lane_double_mod]
  exact lane_compact _ ht hj

end Sys2Proof.Machine

/-! The commands that add lanes and registers: SUMW2, SUMW, ADD (R160 to R162). -/

namespace Sys2Proof.Machine

/-- SUMW's sum as the sum of the list of all lanes (R161). -/
theorem sumLanes_eq (K : Nat) (a : Scalar) : sumLanes K a = ((List.range (128 / K)).map (lane K a)).sum :=
  sumUpTo_eq ..

/-- The sum of all lanes fits in a RAW scalar (R161). -/
theorem toNat_ofNat_sumLanes (K : Nat) (a : Scalar) : (BitVec.ofNat 128 (sumLanes K a)).toNat = sumLanes K a := by
  rw [BitVec.toNat_ofNat]
  exact Nat.mod_eq_of_lt (sum_lanes_lt ..)

/-- Settles O25: the value written is `sumPairs`, whose one addition carries nothing from one double lane to the next. -/
theorem sumw2Result : Obligations.Sumw2Result := by
  intro s t rd rs1
  have hwf : (Instr.sumw2 t rd rs1).wellFormed = true ↔ t.toNat ≤ 6 := wellFormed_iff_of_tagLegal rfl rfl
  refine ⟨hasFields_formatC .., raisesFaults_of_wellFormed_iff s hwf, fun ht hholds => ?_⟩
  obtain ⟨s', hexec, hwrites⟩ := runCommand_one_retiredWriting (sumPairs t) (hwf.mpr ht) hholds
  exact ⟨s', _, hexec, hwrites, fun _ hj => lane_sumPairs _ ht hj⟩

/-- Settles O26: the value written is the sum of all lanes, which does not overflow. -/
theorem sumwResult : Obligations.SumwResult := by
  intro s t rd rs1
  have hwf : (Instr.sumw t rd rs1).wellFormed = true ↔ t.toNat ≤ 7 := wellFormed_iff_of_tagLegal rfl rfl
  refine ⟨hasFields_formatC .., raisesFaults_of_wellFormed_iff s hwf, fun ht hholds => ?_⟩
  obtain ⟨s', hexec, hwrites⟩ :=
    runCommand_one_retiredWriting (fun a => BitVec.ofNat 128 (sumLanes (laneWidth t) a)) (hwf.mpr ht) hholds
  exact ⟨s', _, hexec, hwrites, (toNat_ofNat_sumLanes ..).trans (sumLanes_eq ..)⟩

/-- Settles O27: the value written is the sum of the two whole registers; the lane width only enters the tag. -/
theorem addResult : Obligations.AddResult := by
  intro s t rd rs1 rs2
  have hwf : (Instr.add t rd rs1 rs2).wellFormed = true ↔ t.toNat ≤ 7 := wellFormed_iff_of_tagLegal rfl rfl
  refine ⟨hasFields_formatC .., raisesFaults_of_wellFormed_iff s hwf, fun ht h₁ h₂ => ?_⟩
  obtain ⟨s', hexec, hwrites⟩ := runCommand_two_retiredWriting (· + ·) (hwf.mpr ht) h₁ h₂
  exact ⟨s', _, hexec, hwrites, BitVec.toNat_add ..⟩

end Sys2Proof.Machine

/-! The distance commands: MINHWD and MAXHWD (R180 to R182). -/

namespace Sys2Proof.Machine

/-- Tag 1 is the only tag of lane width 2 (R22). -/
theorem laneWidth_eq_two_iff (t : Tag) : laneWidth t = 2 ↔ t = 1#4 := by
  have hexponent : laneWidth t = 2 ↔ t.toNat = 1 := by rw [laneWidth, Nat.pow_eq_self_iff (by norm_num)]
  rw [hexponent, ← BitVec.toNat_inj, BitVec.toNat_ofNat]

/-- One lane of MAXHWD as an integer: the exception for the pair (1, 1) is that of tag 1, and elsewhere the natural
number is the absolute difference (R182). -/
theorem maxDistanceLane_cast (t : Tag) (p q : Nat) :
    (maxDistanceLane (laneWidth t) p q : Int) = if t = 1#4 ∧ p = 1 ∧ q = 1 then 2 else |(p : Int) - q| := by
  simp only [maxDistanceLane, laneWidth_eq_two_iff, Nat.cast_ite, absDiff_cast, Nat.cast_ofNat]

/-- Settles O28: the value written is `minDistance`, whose lanes are absolute differences that fit in a lane. -/
theorem minhwdResult : Obligations.MinhwdResult := by
  intro s t rd rs1 rs2
  have hwf : (Instr.minhwd t rd rs1 rs2).wellFormed = true ↔ t.toNat ≤ 7 := wellFormed_iff_of_tagLegal rfl rfl
  refine ⟨hasFields_formatC .., raisesFaults_of_wellFormed_iff s hwf, fun ht h₁ h₂ => ?_⟩
  obtain ⟨s', hexec, hwrites⟩ := runCommand_two_retiredWriting (minDistance (laneWidth t)) (hwf.mpr ht) h₁ h₂
  exact ⟨s', _, hexec, hwrites, fun _ hj =>
    (congrArg Nat.cast (lane_minDistance _ _ hj)).trans (absDiff_cast ..)⟩

/-- Settles O29: the value written is `maxDistance`, whose lanes fit too: the 2 of the pair (1, 1) needs both bits of its
lane. -/
theorem maxhwdResult : Obligations.MaxhwdResult := by
  intro s t rd rs1 rs2
  have hwf : (Instr.maxhwd t rd rs1 rs2).wellFormed = true ↔ t.toNat ≤ 7 := wellFormed_iff_of_tagLegal rfl rfl
  refine ⟨hasFields_formatC .., raisesFaults_of_wellFormed_iff s hwf, fun ht h₁ h₂ => ?_⟩
  obtain ⟨s', hexec, hwrites⟩ := runCommand_two_retiredWriting (maxDistance (laneWidth t)) (hwf.mpr ht) h₁ h₂
  exact ⟨s', _, hexec, hwrites, fun _ hj =>
    (congrArg Nat.cast (lane_maxDistance _ _ hj)).trans (maxDistanceLane_cast ..)⟩

end Sys2Proof.Machine

/-! The conversions and comparisons: TOX, FROMX, CMPEQ, CMPLTU (R200 to R203). -/

namespace Sys2Proof.Machine

/-- The tag of Bits{2K} has the code of Bits{K}x{2K} less 7, with no wrap-around (R22, R200). -/
theorem wrappedTag_eq_ofNat {t : Tag} (ht : 8 ≤ t.toNat) : wrappedTag t = BitVec.ofNat 4 (t.toNat - 7) := by
  unfold wrappedTag
  bv_omega

/-- TOX and FROMX take the overflow-tracking tags (R94). -/
theorem isOverflow_eq_decide (t : Tag) : Tag.isOverflow t = decide (8 ≤ t.toNat ∧ t.toNat ≤ 14) :=
  (Bool.decide_and ..).symm

/-- The tags wanted of the sources matter to the faults of a legal command only: ILLEGAL comes first (R226). -/
theorem raisesFaults_of_sources_eq {i : Instr} {s : State} {legal : Prop} {sources sources' : List (RegIdx × Tag)}
    (h : RaisesFaults i s legal sources) (heq : legal → sources = sources') : RaisesFaults i s legal sources' := by
  obtain ⟨hillegal, hfailing⟩ := h
  exact ⟨hillegal, fun c o hlegal hfails => hfailing c o hlegal (heq hlegal ▸ hfails)⟩

/-- A comparison's result is 1 where the compared scalars are in the relation and 0 elsewhere (R34). -/
theorem truthScalar_decide (p : Prop) [Decidable p] : truthScalar (decide p) = if p then 1 else 0 := by
  by_cases hp : p <;> simp [truthScalar, hp]

/-- Settles O30: the value written is the source's own, and the source's tag is `wrappedTag`, which is t-7 for the legal
tags; the faults need it for them alone. -/
theorem toxResult : Obligations.ToxResult := by
  intro s t rd rs1
  have hwf : (Instr.tox t rd rs1).wellFormed = true ↔ 8 ≤ t.toNat ∧ t.toNat ≤ 14 :=
    wellFormed_iff_of_tagLegal (isOverflow_eq_decide t) rfl
  refine ⟨hasFields_formatC .., raisesFaults_of_sources_eq (raisesFaults_of_wellFormed_iff s hwf) ?_,
    fun hmin hmax hholds => ?_⟩
  · rintro ⟨hmin, -⟩
    exact congrArg (fun tag => [(rs1, tag)]) (wrappedTag_eq_ofNat hmin)
  · rw [← wrappedTag_eq_ofNat hmin] at hholds
    exact runCommand_one_retiredWriting id (hwf.mpr ⟨hmin, hmax⟩) hholds

/-- Settles O31: the value written is the source's own, under `wrappedTag`, which is t-7 for the legal tags. -/
theorem fromxResult : Obligations.FromxResult := by
  intro s t rd rs1
  have hwf : (Instr.fromx t rd rs1).wellFormed = true ↔ 8 ≤ t.toNat ∧ t.toNat ≤ 14 :=
    wellFormed_iff_of_tagLegal (isOverflow_eq_decide t) rfl
  refine ⟨hasFields_formatC .., raisesFaults_of_wellFormed_iff s hwf, fun hmin hmax hholds => ?_⟩
  rw [← wrappedTag_eq_ofNat hmin]
  exact runCommand_one_retiredWriting id (hwf.mpr ⟨hmin, hmax⟩) hholds

/-- Settles O32: every tag is legal, and the value written is the truth of the equality. -/
theorem cmpeqResult : Obligations.CmpeqResult := by
  intro s t rd rs1 rs2
  have hwf : (Instr.cmpeq t rd rs1 rs2).wellFormed = true ↔ True := iff_of_true rfl trivial
  refine ⟨hasFields_formatC .., raisesFaults_of_wellFormed_iff s hwf, fun h₁ h₂ => ?_⟩
  rw [← truthScalar_decide]
  exact runCommand_two_retiredWriting (fun a b => truthScalar (a == b)) (hwf.mpr trivial) h₁ h₂

/-- Settles O33: every tag is legal, and the value written is the truth of the unsigned order. -/
theorem cmpltuResult : Obligations.CmpltuResult := by
  intro s t rd rs1 rs2
  have hwf : (Instr.cmpltu t rd rs1 rs2).wellFormed = true ↔ True := iff_of_true rfl trivial
  refine ⟨hasFields_formatC .., raisesFaults_of_wellFormed_iff s hwf, fun h₁ h₂ => ?_⟩
  rw [← truthScalar_decide]
  exact runCommand_two_retiredWriting (fun a b => truthScalar (decide (a.toNat < b.toNat))) (hwf.mpr trivial) h₁ h₂

end Sys2Proof.Machine

/-! Steps while FAULT = 1: the engine does not move, the host changes nothing that a command or a second fault would, and
the reset input clears the fault (R228, R229). -/

namespace Sys2Proof.Machine

/-- Idle, by its two parts (R33). -/
theorem State.idle_iff (s : State) : s.idle = true ↔ s.executing = none ∧ s.queue = [] := by
  simp [State.idle, and_comm]

/-- A faulted engine cannot move (R228). -/
theorem State.not_engineCanMove_of_fault {s : State} (hfault : s.fault = true) : s.engineCanMove ≠ true := by
  simp [State.engineCanMove_iff, hfault]

/-- What a command or a second fault would change: the work of the engine, RETIRED, and the record of the fault. -/
def State.faultRecord (s : State) : Option Word × List Word × Word × Word × Word × Cause × Bool :=
  (s.executing, s.queue, s.retired, s.fcmd, s.fidx, s.fcause, s.fopnd)

theorem State.faultRecord_eq_iff {s s' : State} :
    s'.faultRecord = s.faultRecord ↔
      s'.executing = s.executing ∧ s'.queue = s.queue ∧ s'.retired = s.retired ∧ s'.fcmd = s.fcmd ∧
        s'.fidx = s.fidx ∧ s'.fcause = s.fcause ∧ s'.fopnd = s.fopnd := by
  simp only [State.faultRecord, Prod.mk.injEq]

@[simp] theorem State.faultRecord_arbitrated (s : State) : s.arbitrated.faultRecord = s.faultRecord := by
  simp [State.faultRecord_eq_iff]

/-- A CTRL write that leaves FAULT = 1 writes FIE alone (R36, R230). -/
theorem State.faultRecord_writeCtrl {s : State} {v : Word} (hafter : (s.writeCtrl v).fault = true) :
    (s.writeCtrl v).faultRecord = s.faultRecord := by
  rcases s.writeCtrl_cases v with ⟨-, -, hclears⟩ | ⟨-, hkeeps⟩
  · rw [hclears] at hafter
    cases hafter
  · rw [hkeeps]
    rfl

/-- A host access that completes with FAULT = 1 before and after keeps the record: a CMD write is dropped (R68), and no
other write reaches it. -/
theorem State.faultRecord_of_hostAccess {s t : State} {a : HostAccess} {r : Response} (hfault : s.fault = true)
    (hdone : s.hostAccess a = .completes r t) (hafter : t.fault = true) : t.faultRecord = s.faultRecord := by
  rcases s.hostAccess_cases a with hwaits | ⟨_, hnone⟩ | ⟨_, _, v, _, -, -, hwrite⟩
  · cases hwaits.symm.trans hdone
  · cases hnone.symm.trans hdone
    rfl
  · rcases hwrite with ⟨-, ⟨-, hdropped⟩ | ⟨hclear, -⟩⟩ | ⟨-, hctrl⟩ | ⟨_, _, -, -, hdata⟩ | ⟨_, -, -, htag⟩
    · cases hdropped.symm.trans hdone
      rfl
    · cases hclear.symm.trans hfault
    · cases hctrl.symm.trans hdone
      exact State.faultRecord_writeCtrl hafter
    · cases hdata.symm.trans hdone
      rfl
    · cases htag.symm.trans hdone
      rfl

/-- What trying an access can do: leave it waiting, or complete it and note the response (R68, R69). -/
theorem State.tryAccess_cases (s : State) (a : HostAccess) :
    s.tryAccess a = { s with waiting := some a } ∨
    ∃ r t, s.hostAccess a = .completes r t ∧
      s.tryAccess a = { t with waiting := none, responses := r :: t.responses } := by
  unfold State.tryAccess
  cases s.hostAccess a with
  | waits => exact .inl rfl
  | completes r t => exact .inr ⟨r, t, rfl, rfl⟩

theorem State.faultRecord_tryAccess {s : State} {a : HostAccess} (hfault : s.fault = true)
    (hafter : (s.tryAccess a).fault = true) : (s.tryAccess a).faultRecord = s.faultRecord := by
  rcases s.tryAccess_cases a with hwaits | ⟨r, t, hdone, htry⟩
  · rw [hwaits]
    rfl
  · rw [htry] at hafter ⊢
    have hkept : t.faultRecord = s.faultRecord := State.faultRecord_of_hostAccess hfault hdone hafter
    exact hkept

theorem State.faultRecord_busMove {s : State} (hfault : s.fault = true) (hafter : s.busMove.fault = true) :
    s.busMove.faultRecord = s.faultRecord := by
  rcases s.busMove_cases with ⟨a, -, hmove⟩ | ⟨a, rest, -, -, hmove⟩ | hmove <;> rw [hmove] at hafter ⊢
  · exact State.faultRecord_tryAccess hfault hafter
  · exact State.faultRecord_tryAccess (s := { s with inputs := rest }) hfault hafter

/-- The reset input clears the fault, so a move of it that leaves FAULT = 1 does nothing (R260). -/
theorem State.resetMove_eq_self {s : State} (hafter : s.resetMove.fault = true) : s.resetMove = s := by
  rcases s.resetMove_cases with ⟨rest, -, hreset⟩ | hsame
  · rw [hreset] at hafter
    cases hafter
  · exact hsame

/-- A step with FAULT = 1 before and after executes nothing and records nothing (R228, R229). -/
theorem faultRecord_of_step {s s' : State} (hfault : s.fault = true) (hstep : step s = .next s')
    (hafter : s'.fault = true) : s'.faultRecord = s.faultRecord := by
  rcases step_cases s with ⟨-, hrest⟩ | ⟨agent, hcan, -, hmove⟩
  · cases hrest.symm.trans hstep
    rfl
  · rw [← s.faultRecord_arbitrated]
    cases agent with
    | engine => exact absurd hcan (State.not_engineCanMove_of_fault hfault)
    | bus =>
      cases hmove.symm.trans hstep
      exact State.faultRecord_busMove (s.arbitrated_fault.trans hfault) hafter
    | reset =>
      cases hmove.symm.trans hstep
      rw [State.resetMove_eq_self hafter]

/-- Settles O13: the engine is idle by the invariant, and the step keeps its work and the record of the fault. -/
theorem nothingExecutesWhileFaulted : Obligations.NothingExecutesWhileFaulted := by
  rintro s s' ⟨-, hidle, -⟩ hfault hstep hafter
  obtain ⟨hexecuting, hqueue, hrecord⟩ := State.faultRecord_eq_iff.mp (faultRecord_of_step hfault hstep hafter)
  obtain ⟨hnothing, hempty⟩ := s.idle_iff.mp (hidle hfault)
  exact ⟨hexecuting.trans hnothing, hqueue.trans hempty, hrecord⟩

end Sys2Proof.Machine

/-! The encoder and the decoder are inverse on legal commands (R91, R94), and the decoder rejects exactly the illegal
words of R95. -/

namespace Sys2Proof.Machine

/-- The word of a command of one source passes the check of the unused fields (R95 item 3). -/
theorem decodeUnary_formatC (mk : Tag → RegIdx → RegIdx → Instr) (op : BitVec 8) (t : Tag) (rd rs1 : RegIdx) :
    decodeUnary (formatC op t rd rs1 0 0) mk = checkLegal (mk t rd rs1) := by
  simp [decodeUnary]

/-- The word of a command of two destinations passes the check of the unused field (R95 item 3). -/
theorem decodePair_formatC (mk : Tag → RegIdx → RegIdx → RegIdx → Instr) (op : BitVec 8) (t : Tag)
    (rd rd2 rs1 : RegIdx) : decodePair (formatC op t rd rs1 0 rd2) mk = checkLegal (mk t rd rd2 rs1) := by
  simp [decodePair]

/-- The word of a command of two sources passes the check of the unused field (R95 item 3). -/
theorem decodeBinary_formatC (mk : Tag → RegIdx → RegIdx → RegIdx → Instr) (op : BitVec 8) (t : Tag)
    (rd rs1 rs2 : RegIdx) : decodeBinary (formatC op t rd rs1 rs2 0) mk = checkLegal (mk t rd rs1 rs2) := by
  simp [decodeBinary]

/-- The opcode map takes the word of a command, legal or not, to the last check of that command (R94). -/
theorem decodeOp_encode (i : Instr) : decodeOp (encode i) = checkLegal i := by
  cases i with
  | wrap | unwrap | bcast | any | popc | squash | sumw2 | sumw | tox | fromx =>
    simp only [decodeOp, encode, opField_formatC]
    exact decodeUnary_formatC ..
  | split | halve =>
    simp only [decodeOp, encode, opField_formatC]
    exact decodePair_formatC ..
  | merge | union | add | minhwd | maxhwd | cmpeq | cmpltu =>
    simp only [decodeOp, encode, opField_formatC]
    exact decodeBinary_formatC ..

/-- Bits 3:0 of the word of a command are 0 (R91). -/
theorem zField_encode (i : Instr) : zField (encode i) = 0#4 := by
  cases i <;> exact zField_formatC ..

/-- Settles O1: the word has 0 in bits 3:0, its op selects the command's shape, and a legal command passes the checks.
-/
theorem decodeOfEncode : Obligations.DecodeOfEncode := by
  intro i hwf
  rw [decode, if_pos (zField_encode i), decodeOp_encode, checkLegal_of_wellFormed hwf]

/-- Settles O4: each word is the encoding of the legal command beside it. -/
theorem workedEncodingsDecode : Obligations.WorkedEncodingsDecode :=
  ⟨decodeOfEncode (.wrap 0 1 0) rfl, decodeOfEncode (.split 0 2 3 1) rfl, decodeOfEncode (.minhwd 1 4 5 6) rfl,
    decodeOfEncode (.tox 10 1 2) rfl, decodeOfEncode (.cmpeq 15 4 2 3) rfl, decodeOfEncode (.add 3 11 2 3) rfl⟩

section Shapes

variable {w : Word} {i : Instr} {op : BitVec 8}

/-- A word that decodes as a command of one source is legal and the word of that command, if its op is the command's. -/
theorem encode_of_decodeUnary (mk : Tag → RegIdx → RegIdx → Instr)
    (hencode : ∀ t rd rs1, encode (mk t rd rs1) = formatC op t rd rs1 0 0) (hop : (opField w).toNat = op.toNat)
    (hz : zField w = 0#4) (h : decodeUnary w mk = .ok i) : i.wellFormed = true ∧ encode i = w := by
  unfold decodeUnary at h
  split at h
  · next hunused =>
    obtain ⟨hrs2, hrd2⟩ := hunused
    obtain ⟨rfl, hwf⟩ := checkLegal_ok h
    refine ⟨hwf, (hencode ..).trans (Eq.trans ?_ (formatC_fields hz))⟩
    rw [BitVec.eq_of_toNat_eq hop, hrs2, hrd2]
    rfl
  · cases h

/-- A word that decodes as a command of two destinations is legal and the word of that command, if its op is the
command's. -/
theorem encode_of_decodePair (mk : Tag → RegIdx → RegIdx → RegIdx → Instr)
    (hencode : ∀ t rd rd2 rs1, encode (mk t rd rd2 rs1) = formatC op t rd rs1 0 rd2)
    (hop : (opField w).toNat = op.toNat) (hz : zField w = 0#4) (h : decodePair w mk = .ok i) :
    i.wellFormed = true ∧ encode i = w := by
  unfold decodePair at h
  split at h
  · next hrs2 =>
    obtain ⟨rfl, hwf⟩ := checkLegal_ok h
    refine ⟨hwf, (hencode ..).trans (Eq.trans ?_ (formatC_fields hz))⟩
    rw [BitVec.eq_of_toNat_eq hop, hrs2]
    rfl
  · cases h

/-- A word that decodes as a command of two sources is legal and the word of that command, if its op is the
command's. -/
theorem encode_of_decodeBinary (mk : Tag → RegIdx → RegIdx → RegIdx → Instr)
    (hencode : ∀ t rd rs1 rs2, encode (mk t rd rs1 rs2) = formatC op t rd rs1 rs2 0)
    (hop : (opField w).toNat = op.toNat) (hz : zField w = 0#4) (h : decodeBinary w mk = .ok i) :
    i.wellFormed = true ∧ encode i = w := by
  unfold decodeBinary at h
  split at h
  · next hrd2 =>
    obtain ⟨rfl, hwf⟩ := checkLegal_ok h
    refine ⟨hwf, (hencode ..).trans (Eq.trans ?_ (formatC_fields hz))⟩
    rw [BitVec.eq_of_toNat_eq hop, hrd2]
    rfl
  · cases h

end Shapes

/-- A word that the opcode map accepts is legal and the word of its command: one line for each op of R94. -/
theorem encode_of_decodeOp {w : Word} {i : Instr} (hz : zField w = 0#4) (h : decodeOp w = .ok i) :
    i.wellFormed = true ∧ encode i = w := by
  unfold decodeOp at h
  split at h <;> rename_i hop
  · exact encode_of_decodeUnary (op := 0x01#8) .wrap (fun _ _ _ => rfl) hop hz h
  · exact encode_of_decodeUnary (op := 0x02#8) .unwrap (fun _ _ _ => rfl) hop hz h
  · exact encode_of_decodeUnary (op := 0x10#8) .bcast (fun _ _ _ => rfl) hop hz h
  · exact encode_of_decodeUnary (op := 0x11#8) .any (fun _ _ _ => rfl) hop hz h
  · exact encode_of_decodeUnary (op := 0x12#8) .popc (fun _ _ _ => rfl) hop hz h
  · exact encode_of_decodePair (op := 0x20#8) .split (fun _ _ _ _ => rfl) hop hz h
  · exact encode_of_decodeBinary (op := 0x21#8) .merge (fun _ _ _ _ => rfl) hop hz h
  · exact encode_of_decodePair (op := 0x22#8) .halve (fun _ _ _ _ => rfl) hop hz h
  · exact encode_of_decodeBinary (op := 0x23#8) .union (fun _ _ _ _ => rfl) hop hz h
  · exact encode_of_decodeUnary (op := 0x24#8) .squash (fun _ _ _ => rfl) hop hz h
  · exact encode_of_decodeUnary (op := 0x30#8) .sumw2 (fun _ _ _ => rfl) hop hz h
  · exact encode_of_decodeUnary (op := 0x31#8) .sumw (fun _ _ _ => rfl) hop hz h
  · exact encode_of_decodeBinary (op := 0x32#8) .add (fun _ _ _ _ => rfl) hop hz h
  · exact encode_of_decodeBinary (op := 0x40#8) .minhwd (fun _ _ _ _ => rfl) hop hz h
  · exact encode_of_decodeBinary (op := 0x41#8) .maxhwd (fun _ _ _ _ => rfl) hop hz h
  · exact encode_of_decodeUnary (op := 0x50#8) .tox (fun _ _ _ => rfl) hop hz h
  · exact encode_of_decodeUnary (op := 0x51#8) .fromx (fun _ _ _ => rfl) hop hz h
  · exact encode_of_decodeBinary (op := 0x52#8) .cmpeq (fun _ _ _ _ => rfl) hop hz h
  · exact encode_of_decodeBinary (op := 0x53#8) .cmpltu (fun _ _ _ _ => rfl) hop hz h
  · cases h

/-- Settles O2: every bit of a word is a bit of one of its fields, and a decoded word's fields are its command's. -/
theorem encodeOfDecode : Obligations.EncodeOfDecode := by
  intro w i h
  unfold decode at h
  split at h
  · next hz => exact encode_of_decodeOp hz h
  · cases h

/-- A word whose op has a row of R94 is illegal if that row rejects it (R95). -/
theorem illegalWord_of_row {w : Word} {row : OpRow} (hmem : row ∈ opTable) (hop : (opField w).toNat = row.op)
    (hrejects : RowRejects row w) : IllegalWord w := by
  rw [opField, extract_toNat] at hop
  exact .inr ⟨row, hmem, hop.symm, hrejects⟩

/-- A word whose op has no row of R94 is illegal (R95 item 1). -/
theorem illegalWord_of_unassigned {w : Word} (h : ∀ row ∈ opTable, (opField w).toNat ≠ row.op) : IllegalWord w := by
  refine .inl fun row hmem hop => h row hmem ?_
  rw [opField, extract_toNat, hop]

section Rejected

variable {w : Word} {e : Illegal} {op : Nat}

/-- A word that is rejected as a command of one source is illegal, if R94 has its op with tags all legal. -/
theorem illegalWord_of_decodeUnary (mk : Tag → RegIdx → RegIdx → Instr) (lo hi : Nat)
    (hlegal : ∀ t rd rs1, lo ≤ t.toNat → t.toNat ≤ hi → (mk t rd rs1).wellFormed = true)
    (hmem : ⟨op, lo, hi, false, false⟩ ∈ opTable) (hop : (opField w).toNat = op) (h : decodeUnary w mk = .error e) :
    IllegalWord w := by
  refine illegalWord_of_row hmem hop ((rowRejects_iff _ _).mpr ?_)
  by_contra haccepts
  simp only [not_or, not_lt, true_and, not_not] at haccepts
  obtain ⟨hmin, hmax, hrs2, hrd2, -, -⟩ := haccepts
  rw [decodeUnary, if_pos ⟨hrs2, hrd2⟩, checkLegal_of_wellFormed (hlegal _ _ _ hmin hmax)] at h
  cases h

/-- A word that is rejected as a command of two destinations is illegal, if R94 has its op with tags all legal. -/
theorem illegalWord_of_decodePair (mk : Tag → RegIdx → RegIdx → RegIdx → Instr) (lo hi : Nat)
    (hlegal : ∀ t rd rd2 rs1, lo ≤ t.toNat → t.toNat ≤ hi → rd ≠ rd2 → (mk t rd rd2 rs1).wellFormed = true)
    (hmem : ⟨op, lo, hi, false, true⟩ ∈ opTable) (hop : (opField w).toNat = op) (h : decodePair w mk = .error e) :
    IllegalWord w := by
  refine illegalWord_of_row hmem hop ((rowRejects_iff _ _).mpr ?_)
  by_contra haccepts
  simp only [not_or, not_lt, true_and, not_not] at haccepts
  obtain ⟨hmin, hmax, hrs2, -, -, hne⟩ := haccepts
  rw [decodePair, if_pos hrs2, checkLegal_of_wellFormed (hlegal _ _ _ _ hmin hmax hne)] at h
  cases h

/-- A word that is rejected as a command of two sources is illegal, if R94 has its op with tags all legal. -/
theorem illegalWord_of_decodeBinary (mk : Tag → RegIdx → RegIdx → RegIdx → Instr) (lo hi : Nat)
    (hlegal : ∀ t rd rs1 rs2, lo ≤ t.toNat → t.toNat ≤ hi → (mk t rd rs1 rs2).wellFormed = true)
    (hmem : ⟨op, lo, hi, true, false⟩ ∈ opTable) (hop : (opField w).toNat = op) (h : decodeBinary w mk = .error e) :
    IllegalWord w := by
  refine illegalWord_of_row hmem hop ((rowRejects_iff _ _).mpr ?_)
  by_contra haccepts
  simp only [not_or, not_lt, true_and, not_not] at haccepts
  obtain ⟨hmin, hmax, -, hrd2, -, -⟩ := haccepts
  rw [decodeBinary, if_pos hrd2, checkLegal_of_wellFormed (hlegal _ _ _ _ hmin hmax)] at h
  cases h

end Rejected

/-- A command whose destinations cannot clash is legal with a legal tag (R95). -/
theorem wellFormed_of_tagLegal {i : Instr} {legal : Prop} [Decidable legal] (htag : i.tagLegal = decide legal)
    (hdiffer : i.destinationsDiffer = true) (hlegal : legal) : i.wellFormed = true :=
  (wellFormed_iff_of_tagLegal htag hdiffer).mpr hlegal

/-- A word that the opcode map rejects is illegal: one line for each row of R94, with its shape and its legal tags, and
one for the ops that have no row. -/
theorem illegalWord_of_decodeOp {w : Word} {e : Illegal} (h : decodeOp w = .error e) : IllegalWord w := by
  unfold decodeOp at h
  split at h <;> rename_i hop
  · exact illegalWord_of_decodeUnary .wrap 0 7 (fun _ _ _ _ hmax => wellFormed_of_tagLegal rfl rfl hmax)
      (by decide) hop h
  · exact illegalWord_of_decodeUnary .unwrap 0 14 (fun _ _ _ _ hmax => wellFormed_of_tagLegal rfl rfl hmax)
      (by decide) hop h
  · exact illegalWord_of_decodeUnary .bcast 0 7 (fun _ _ _ _ hmax => wellFormed_of_tagLegal rfl rfl hmax)
      (by decide) hop h
  · exact illegalWord_of_decodeUnary .any 0 7 (fun _ _ _ _ hmax => wellFormed_of_tagLegal rfl rfl hmax)
      (by decide) hop h
  · exact illegalWord_of_decodeUnary .popc 0 7 (fun _ _ _ _ hmax => wellFormed_of_tagLegal rfl rfl hmax)
      (by decide) hop h
  · exact illegalWord_of_decodePair .split 0 6 (fun _ _ _ _ _ hmax hne =>
      (wellFormed_iff_of_destinationsDiffer rfl rfl).mpr ⟨hmax, hne⟩) (by decide) hop h
  · exact illegalWord_of_decodeBinary .merge 0 6 (fun _ _ _ _ _ hmax => wellFormed_of_tagLegal rfl rfl hmax)
      (by decide) hop h
  · exact illegalWord_of_decodePair .halve 0 6 (fun _ _ _ _ _ hmax hne =>
      (wellFormed_iff_of_destinationsDiffer rfl rfl).mpr ⟨hmax, hne⟩) (by decide) hop h
  · exact illegalWord_of_decodeBinary .union 0 6 (fun _ _ _ _ _ hmax => wellFormed_of_tagLegal rfl rfl hmax)
      (by decide) hop h
  · exact illegalWord_of_decodeUnary .squash 0 6 (fun _ _ _ _ hmax => wellFormed_of_tagLegal rfl rfl hmax)
      (by decide) hop h
  · exact illegalWord_of_decodeUnary .sumw2 0 6 (fun _ _ _ _ hmax => wellFormed_of_tagLegal rfl rfl hmax)
      (by decide) hop h
  · exact illegalWord_of_decodeUnary .sumw 0 7 (fun _ _ _ _ hmax => wellFormed_of_tagLegal rfl rfl hmax)
      (by decide) hop h
  · exact illegalWord_of_decodeBinary .add 0 7 (fun _ _ _ _ _ hmax => wellFormed_of_tagLegal rfl rfl hmax)
      (by decide) hop h
  · exact illegalWord_of_decodeBinary .minhwd 0 7 (fun _ _ _ _ _ hmax => wellFormed_of_tagLegal rfl rfl hmax)
      (by decide) hop h
  · exact illegalWord_of_decodeBinary .maxhwd 0 7 (fun _ _ _ _ _ hmax => wellFormed_of_tagLegal rfl rfl hmax)
      (by decide) hop h
  · exact illegalWord_of_decodeUnary .tox 8 14 (fun t _ _ hmin hmax =>
      wellFormed_of_tagLegal (isOverflow_eq_decide t) rfl ⟨hmin, hmax⟩) (by decide) hop h
  · exact illegalWord_of_decodeUnary .fromx 8 14 (fun t _ _ hmin hmax =>
      wellFormed_of_tagLegal (isOverflow_eq_decide t) rfl ⟨hmin, hmax⟩) (by decide) hop h
  · exact illegalWord_of_decodeBinary .cmpeq 0 15 (fun _ _ _ _ _ _ => rfl) (by decide) hop h
  · exact illegalWord_of_decodeBinary .cmpltu 0 15 (fun _ _ _ _ _ _ => rfl) (by decide) hop h
  · exact illegalWord_of_unassigned (by simp_all [opTable])

/-- A word that does not decode is illegal (R95). -/
theorem illegalWord_of_decode_error {w : Word} {e : Illegal} (h : decode w = .error e) : IllegalWord w := by
  unfold decode at h
  split at h
  · exact illegalWord_of_decodeOp h
  · next hz =>
    by_cases hrow : ∃ row ∈ opTable, (opField w).toNat = row.op
    · obtain ⟨row, hmem, hop⟩ := hrow
      exact illegalWord_of_row hmem hop ((rowRejects_iff _ _).mpr (by simp [hz]))
    · exact illegalWord_of_unassigned fun row hmem hop => hrow ⟨row, hmem, hop⟩

/-- Settles O3: a rejected word meets a condition of its op's row or has none, and a word that decodes meets no
condition. -/
theorem decoderRejectsExactlyIllegalWords : Obligations.DecoderRejectsExactlyIllegalWords := by
  intro w
  refine ⟨fun ⟨_, herror⟩ => illegalWord_of_decode_error herror, fun hillegal => ?_⟩
  cases hdecode : decode w with
  | ok i => exact absurd hillegal (not_illegalWord_of_decode_ok hdecode)
  | error e => exact ⟨e, rfl⟩

end Sys2Proof.Machine

/-! One step, by what causes it: nothing moves, the engine moves, the bus takes the presented access, or the reset
input resets (R70 to R72, R260); and the invariant that every step keeps. -/

namespace Sys2Proof.Machine

/-- What a host access that completes has done to the state: nothing, or a CMD, CTRL, DATA or TAG write (R66 to R68,
R230). -/
inductive AccessEffect (s t : State) (a : HostAccess) : Prop where
  | none (hsame : t = s)
  | dropped (hfault : s.fault = true) (hdropped : t = { s with drop := true })
  | queued (v : Word) (hclear : s.fault = false) (hroom : s.queue.length < Config.qdepth)
      (hqueued : t = { s with queue := s.queue ++ [v] })
  | ctrl (bits addr : Nat) (v : Word) (off : Nat) (haccess : a = .write bits addr v)
      (hoff : windowOffset addr = some off) (hport : selectPort bits off = some .ctrl) (hwritten : t = s.writeCtrl v)
  | data (bits addr : Nat) (v : Word) (off : Nat) (i : RegIdx) (j : BitVec 2) (haccess : a = .write bits addr v)
      (hoff : windowOffset addr = some off) (hport : selectPort bits off = some (.data i j)) (hidle : s.idle = true)
      (hwritten : t = s.writeData i j v)
  | tag (bits addr : Nat) (v : Word) (off : Nat) (i : RegIdx) (haccess : a = .write bits addr v)
      (hoff : windowOffset addr = some off) (hport : selectPort bits off = some (.tag i)) (hidle : s.idle = true)
      (hwritten : t = s.writeTag i v)

/-- A host access that completes has one of these effects. -/
theorem accessEffect_of_hostAccess {s t : State} {a : HostAccess} {r : Response}
    (hdone : s.hostAccess a = .completes r t) : AccessEffect s t a := by
  rcases s.hostAccess_cases a with hwaits | ⟨_, hsame⟩ | ⟨bits, addr, v, off, haccess, hoff, hwrite⟩
  · cases hwaits.symm.trans hdone
  · cases hsame.symm.trans hdone
    exact .none rfl
  · rcases hwrite with ⟨-, ⟨hfault, hcmd⟩ | ⟨hclear, hroom, hcmd⟩⟩ | ⟨hport, hctrl⟩ | ⟨i, j, hport, hidle, hdata⟩ |
      ⟨i, hport, hidle, htag⟩
    · cases hcmd.symm.trans hdone
      exact .dropped hfault rfl
    · cases hcmd.symm.trans hdone
      exact .queued v hclear hroom rfl
    · cases hctrl.symm.trans hdone
      exact .ctrl bits addr v off haccess hoff hport rfl
    · cases hdata.symm.trans hdone
      exact .data bits addr v off i j haccess hoff hport hidle rfl
    · cases htag.symm.trans hdone
      exact .tag bits addr v off i haccess hoff hport hidle rfl

/-- A CTRL write changes FIE and the fault state alone (R36, R230). -/
theorem State.writeCtrl_frame (s : State) (v : Word) :
    (s.writeCtrl v).executing = s.executing ∧ (s.writeCtrl v).inputs = s.inputs ∧
      (s.writeCtrl v).responses = s.responses ∧ (s.writeCtrl v).queue = s.queue ∧ (s.writeCtrl v).regs = s.regs := by
  rcases s.writeCtrl_cases v with ⟨-, -, h⟩ | ⟨-, h⟩ <;> rw [h] <;> exact ⟨rfl, rfl, rfl, rfl, rfl⟩

/-- What no completing host access changes: the executing word, the lists of the outside, and the words already
queued. -/
theorem State.hostAccess_frame {s t : State} {a : HostAccess} {r : Response} (hdone : s.hostAccess a = .completes r t) :
    t.executing = s.executing ∧ t.inputs = s.inputs ∧ t.responses = s.responses ∧
      (t.queue = s.queue ∨ ∃ v, t.queue = s.queue ++ [v]) := by
  cases accessEffect_of_hostAccess hdone with
  | none h | dropped _ h | data _ _ _ _ _ _ _ _ _ _ h | tag _ _ _ _ _ _ _ _ _ h =>
    rw [h]
    exact ⟨rfl, rfl, rfl, .inl rfl⟩
  | queued v _ _ h =>
    rw [h]
    exact ⟨rfl, rfl, rfl, .inr ⟨v, rfl⟩⟩
  | ctrl _ _ v _ _ _ _ h =>
    obtain ⟨hexecuting, hinputs, hresponses, hqueue, -⟩ := s.writeCtrl_frame v
    rw [h]
    exact ⟨hexecuting, hinputs, hresponses, .inl hqueue⟩

@[simp] theorem State.atAccess_responses (s : State) : s.atAccess.responses = s.responses := s.arbitrated_responses

/-- Trying the presented access is what the rule of accesses says (R68, R69, R72). -/
theorem State.accessTakes_tryAccess (s : State) (a : HostAccess) : s.AccessTakes (s.atAccess.tryAccess a) a := by
  unfold State.AccessTakes State.tryAccess
  cases hdone : s.atAccess.hostAccess a with
  | waits => exact .inr ⟨rfl, rfl⟩
  | completes r t =>
    obtain ⟨-, -, hresponses, -⟩ := State.hostAccess_frame hdone
    exact .inl ⟨r, t, rfl, by simp [hresponses]⟩

/-- The presented access is the one that waits, or else the outside's next (R72). -/
theorem State.presented_eq_some_iff {s : State} {a : HostAccess} :
    s.presented = some a ↔ s.waiting = some a ∨ (s.waiting = none ∧ ∃ rest, s.inputs = .access a :: rest) := by
  unfold State.presented
  cases s.waiting with
  | some b => simp
  | none =>
    cases s.inputs with
    | nil => simp
    | cons x rest => cases x <;> simp

/-- The bus's move, after the arbitration, is to try the presented access (R72). -/
theorem State.busMove_arbitrated {s : State} {a : HostAccess} (h : s.presented = some a) :
    s.arbitrated.busMove = s.atAccess.tryAccess a := by
  rcases State.presented_eq_some_iff.mp h with hwaiting | ⟨hnone, rest, hinputs⟩
  · have hat : s.atAccess = s.arbitrated := by
      rw [State.atAccess, if_neg (by simp [hwaiting]), ← s.arbitrated_inputs]
    simp [State.busMove, hwaiting, hat]
  · simp [State.busMove, State.atAccess, hnone, hinputs]

/-- Where the bus can move, an access is presented. -/
theorem State.presented_of_canMove_bus {s : State} (h : s.canMove .bus = true) : ∃ a, s.presented = some a := by
  rcases s.busCanMove_iff.mp h with ⟨a, hwaiting, -⟩ | ⟨hnone, a, rest, hinputs⟩
  · exact ⟨a, State.presented_eq_some_iff.mpr (.inl hwaiting)⟩
  · exact ⟨a, State.presented_eq_some_iff.mpr (.inr ⟨hnone, rest, hinputs⟩)⟩

/-- `s` after a step that takes the reset input, `rest` being what the outside has still to do (R260). -/
def State.afterReset (s : State) (rest : List Input) : State := { s.arbitrated with inputs := rest }.applyReset

theorem State.afterReset_responses (s : State) (rest : List Input) :
    (s.afterReset rest).responses = (if s.waiting = none then [] else [.abortedByReset]) ++ s.responses := by
  cases hw : s.waiting <;> simp [State.afterReset, hw]

/-- What causes a step from `s` to `s'`. -/
inductive StepCause (s s' : State) : Prop where
  /-- No agent can move, and nothing changes (R261). -/
  | rest (hmovers : s.movers = []) (hsame : s' = s)
  /-- The engine moves (R33, R71). -/
  | engine (hcan : s.engineCanMove = true) (hmove : s.arbitrated.engineMove = .next s')
  /-- The bus takes the presented access (R72). -/
  | access (a : HostAccess) (hcan : s.busCanMove = true) (hpresented : s.presented = some a)
      (htakes : s.AccessTakes s' a)
  /-- The reset input resets (R260). -/
  | reset (rest : List Input) (hinputs : s.inputs = .reset :: rest) (hafter : s' = s.afterReset rest)

/-- Every step has one of these causes. -/
theorem stepCause_of_step {s s' : State} (hstep : step s = .next s') : StepCause s s' := by
  rcases step_cases s with ⟨hmovers, hrest⟩ | ⟨agent, hcan, -, hmove⟩
  · cases hrest.symm.trans hstep
    exact .rest hmovers rfl
  · cases agent with
    | engine => exact .engine hcan (hmove.symm.trans hstep)
    | bus =>
      cases hmove.symm.trans hstep
      obtain ⟨a, hpresented⟩ := State.presented_of_canMove_bus hcan
      rw [State.busMove_arbitrated hpresented]
      exact .access a hcan hpresented (s.accessTakes_tryAccess a)
    | reset =>
      cases hmove.symm.trans hstep
      obtain ⟨rest, hinputs⟩ := s.resetCanMove_iff.mp hcan
      exact .reset rest hinputs (by simp [State.resetMove, State.afterReset, hinputs])

/-- What the engine's move can do: start the head of the queue, take a fault, or retire a command (R33, R220, R223). -/
inductive EngineEffect (s s' : State) : Prop where
  | start (w : Word) (rest : List Word) (hidle : s.executing = none) (hqueue : s.queue = w :: rest)
      (hstarted : s' = { s with queue := rest, executing := some w })
  | fault (w : Word) (hexecuting : s.executing = some w) (c : Cause) (o : Bool) (hcause : c ≠ .none)
      (hopnd : c = .illegal → o = false) (hfaulted : s' = s.raiseFault c o)
  | retire (w : Word) (hexecuting : s.executing = some w) (hword : s.executeWord w = .next s') (hretired : s.Retired s')

/-- The move of an engine that can move has one of these effects. -/
theorem engineEffect_of_engineMove {s s' : State} (hcan : s.engineCanMove = true) (hmove : s.engineMove = .next s') :
    EngineEffect s s' := by
  rcases s.engineMove_cases with ⟨w, hexecuting, hword⟩ | ⟨w, rest, hidle, hqueue, hstart⟩ | ⟨hidle, hqueue, -⟩
  · rw [hword] at hmove
    rcases s.executeWord_faultsOrRetires w with ⟨c, o, hcause, hopnd, hfault⟩ | ⟨t, hnext, hretired⟩
    · cases hfault.symm.trans hmove
      exact .fault w hexecuting c o hcause hopnd rfl
    · cases hnext.symm.trans hmove
      exact .retire w hexecuting hmove hretired
  · cases hstart.symm.trans hmove
    exact .start w rest hidle hqueue rfl
  · obtain ⟨-, hbusy⟩ := s.engineCanMove_iff.mp hcan
    rw [s.idle_iff.mpr ⟨hidle, hqueue⟩] at hbusy
    cases hbusy

/-- The step where it is a given agent's move, alone or picked (log 3). -/
theorem step_of_picked {s : State} {a : Agent} (hcan : s.canMove a = true) (hpick : s.movers = [a] ∨ s.pick = a) :
    step s = s.arbitrated.move a := by
  have hmem : a ∈ s.movers := State.mem_movers.mpr hcan
  rcases step_cases s with ⟨hmovers, -⟩ | ⟨b, hcanb, hb, hmove⟩
  · simp [hmovers] at hmem
  · suffices h : b = a by rw [hmove, h]
    rcases hpick with halone | rfl
    · have hmover : b ∈ s.movers := State.mem_movers.mpr hcanb
      rwa [halone, List.mem_singleton] at hmover
    · rcases hb with halone | hpicked | hcannot
      · rw [halone, List.mem_singleton] at hmem
        exact hmem.symm
      · exact hpicked.symm
      · simp [hcan] at hcannot

/-- Whether an agent can move depends on no free choice (log 3). -/
theorem State.canMove_setPick (s : State) (p a : Agent) : { s with pick := p }.canMove a = s.canMove a := by
  cases a with
  | engine => rfl
  | reset => rfl
  | bus =>
    rw [Bool.eq_iff_iff]
    exact (State.busCanMove_iff _).trans (Iff.trans (by
      simp only [ne_eq, State.hostAccess_waits_congr (t := { s with pick := p }) (s := s) rfl rfl rfl])
      s.busCanMove_iff.symm)

/-- Settles O9: the agent is the one picked. -/
theorem everyMoverMayMoveNext : Obligations.EveryMoverMayMoveNext :=
  fun s a hcan => ⟨a, step_of_picked ((s.canMove_setPick a a).trans hcan) (.inr rfl)⟩

/-- Settles O6: the step executes the word, which is the meaning of its command. -/
theorem stepRunsDecodedCommand : Obligations.StepRunsDecodedCommand := by
  intro s w i habout hdecode
  rw [habout.step_eq, State.executeWord, hdecode]

/-- Settles O8: an engine that executes nothing starts the head of its queue; after reset no agent can move. -/
theorem stepStartsHeadOfQueue : Obligations.StepStartsHeadOfQueue := by
  refine ⟨fun s w rest _ hexecuting hqueue hmove => ?_, rfl⟩
  simp [step_engine hmove, State.engineMove, hexecuting, hqueue]

/-- Settles O44: the reset input moves, and its move writes the reset values. -/
theorem resetInputResets : Obligations.ResetInputResets := by
  intro s rest hinputs hpick
  have hcan : s.canMove .reset = true := s.resetCanMove_iff.mpr ⟨rest, hinputs⟩
  have hmove : s.arbitrated.resetMove = s.afterReset rest := by simp [State.resetMove, State.afterReset, hinputs]
  refine ⟨s.afterReset rest, (step_of_picked hcan hpick).trans (congrArg _ hmove), ?_⟩
  rw [← s.afterReset_responses rest]
  rfl

/-- The engine's move answers a next state: what executes faults or retires (R97, R223). -/
theorem State.engineMove_answersNext (s : State) : ∃ s', s.engineMove = .next s' := by
  rcases s.engineMove_cases with ⟨w, -, hword⟩ | ⟨w, rest, -, -, hstart⟩ | ⟨-, -, hsame⟩
  · rw [hword]
    rcases s.executeWord_faultsOrRetires w with ⟨_, _, -, -, hfault⟩ | ⟨s', hnext, -⟩
    · exact ⟨_, hfault⟩
    · exact ⟨s', hnext⟩
  · exact ⟨_, hstart⟩
  · exact ⟨s, hsame⟩

/-- Settles O56: no agent moves, or the one that does answers a next state: a command faults or retires. -/
theorem everyStepAnswersNext : Obligations.EveryStepAnswersNext := by
  intro s
  rcases step_cases s with ⟨-, hrest⟩ | ⟨agent, -, -, hmove⟩
  · exact ⟨s, hrest⟩
  · rw [hmove]
    cases agent with
    | engine => exact s.arbitrated.engineMove_answersNext
    | bus => exact ⟨_, rfl⟩
    | reset => exact ⟨_, rfl⟩

/-- Settles O12: an unfaulted command that retires leaves FAULT 0, so it took the fault entry. -/
theorem faultsArePrecise : Obligations.FaultsArePrecise := by
  intro i s s' hclear hexec hfault
  rcases exec_faultsOrRetires i s with ⟨c, o, -, -, hfaults⟩ | ⟨t, hnext, hretired⟩
  · cases hfaults.symm.trans hexec
    rw [State.faultEntry_iff.mpr rfl]
    exact ⟨rfl, rfl, rfl, rfl, rfl, rfl, rfl⟩
  · cases hnext.symm.trans hexec
    rw [hretired, hclear] at hfault
    cases hfault

/-- The invariant where no fault is recorded: every fault field has its value of reset (R225). -/
theorem State.inv_iff_of_clear {s : State} (hclear : s.fault = false) :
    s.Inv ↔ s.queue.length ≤ Config.qdepth ∧ s.drop = false ∧ s.fcause = .none ∧ s.fopnd = false := by
  unfold State.Inv
  constructor
  · rintro ⟨hdepth, -, -, hfields, -⟩
    exact ⟨hdepth, hfields hclear⟩
  · rintro ⟨hdepth, hdrop, hcause, hopnd⟩
    simp [hclear, hdepth, hdrop, hcause, hopnd]

/-- Starting the head of the queue keeps the invariant of an unfaulted engine. -/
theorem State.inv_started {s : State} {w : Word} {rest : List Word} (hinv : s.Inv) (hclear : s.fault = false)
    (hqueue : s.queue = w :: rest) : { s with queue := rest, executing := some w }.Inv := by
  obtain ⟨hdepth, hfields⟩ := (State.inv_iff_of_clear hclear).mp hinv
  rw [hqueue, List.length_cons] at hdepth
  exact (State.inv_iff_of_clear (s := { s with queue := rest, executing := some w }) hclear).mpr
    ⟨by dsimp only; omega, hfields⟩

/-- Taking a fault makes the invariant. -/
theorem State.inv_raiseFault (s : State) {c : Cause} {o : Bool} (hcause : c ≠ .none)
    (hopnd : c = .illegal → o = false) : (s.raiseFault c o).Inv :=
  ⟨Nat.zero_le _, fun _ => rfl, fun _ => hcause, nofun, hopnd⟩

/-- Retiring keeps the invariant. -/
theorem State.inv_of_retired {s s' : State} (hinv : s.Inv) (hretired : s.Retired s') : s'.Inv := by
  obtain ⟨hdepth, hidle, hrest⟩ := hinv
  rw [hretired]
  refine ⟨hdepth, fun h => ?_, hrest⟩
  obtain ⟨-, hqueue⟩ := s.idle_iff.mp (hidle h)
  exact (State.idle_iff _).mpr ⟨rfl, hqueue⟩

/-- A CTRL write keeps the invariant: it clears all fault fields or none (R230). -/
theorem State.inv_writeCtrl {s : State} (hinv : s.Inv) (v : Word) : (s.writeCtrl v).Inv := by
  rcases s.writeCtrl_cases v with ⟨-, -, hctrl⟩ | ⟨-, hctrl⟩ <;> rw [hctrl]
  · obtain ⟨hdepth, -⟩ := hinv
    exact (State.inv_iff_of_clear rfl).mpr ⟨hdepth, rfl, rfl, rfl⟩
  · exact hinv

/-- A host access that completes keeps the invariant: a CMD write sets DROP only at FAULT = 1 and appends only below
QDEPTH words (R68). -/
theorem State.inv_of_hostAccess {s t : State} {a : HostAccess} {r : Response} (hinv : s.Inv)
    (hdone : s.hostAccess a = .completes r t) : t.Inv := by
  cases accessEffect_of_hostAccess hdone with
  | none h | data _ _ _ _ _ _ _ _ _ _ h | tag _ _ _ _ _ _ _ _ _ h =>
    rw [h]
    exact hinv
  | dropped hfault h =>
    obtain ⟨hdepth, hidle, hcause, -, hopnd⟩ := hinv
    rw [h]
    exact ⟨hdepth, hidle, hcause, fun hclear => (by cases hfault.symm.trans hclear), hopnd⟩
  | queued v hclear hroom h =>
    obtain ⟨-, hfields⟩ := (State.inv_iff_of_clear hclear).mp hinv
    rw [h]
    exact (State.inv_iff_of_clear (s := { s with queue := s.queue ++ [v] }) hclear).mpr
      ⟨by simpa using hroom, hfields⟩
  | ctrl _ _ v _ _ _ _ h =>
    rw [h]
    exact State.inv_writeCtrl hinv v

/-- Arbitration keeps the invariant. -/
theorem State.inv_arbitrated {s : State} (hinv : s.Inv) : s.arbitrated.Inv := by
  rcases s.arbitrated_cases with h | h <;> rw [h] <;> exact hinv

/-- An access that is taken keeps the invariant. -/
theorem State.AccessTakes.inv {s s' : State} {a : HostAccess} (htakes : s.AccessTakes s' a) (hinv : s.Inv) :
    s'.Inv := by
  have hat : s.atAccess.Inv := State.inv_arbitrated hinv
  rcases htakes with ⟨r, t, hdone, rfl⟩ | ⟨-, rfl⟩
  · have ht : t.Inv := State.inv_of_hostAccess hat hdone
    exact ht
  · exact hat

/-- Settles O58: after reset the queue is empty and no fault is recorded. -/
theorem resetMeetsInvariant : Obligations.ResetMeetsInvariant :=
  (State.inv_iff_of_clear rfl).mpr ⟨Nat.zero_le _, rfl, rfl, rfl⟩

/-- Settles O57: by the cause of the step; only an unfaulted engine moves, and the reset input gives the state after
reset. -/
theorem stepKeepsInvariant : Obligations.StepKeepsInvariant := by
  intro s s' hinv hstep
  have harb : s.arbitrated.Inv := State.inv_arbitrated hinv
  cases stepCause_of_step hstep with
  | rest _ hsame => rwa [hsame]
  | engine hcan hmove =>
    obtain ⟨hclear, -⟩ := s.engineCanMove_iff.mp hcan
    cases engineEffect_of_engineMove ((s.canMove_arbitrated .engine).trans hcan) hmove with
    | start w rest _ hqueue hstarted =>
      rw [hstarted]
      exact State.inv_started harb (s.arbitrated_fault.trans hclear) hqueue
    | fault w _ c o hcause hopnd hfaulted =>
      rw [hfaulted]
      exact State.inv_raiseFault _ hcause hopnd
    | retire w _ _ hretired => exact State.inv_of_retired harb hretired
  | access a _ _ htakes => exact htakes.inv hinv
  | reset rest _ hafter =>
    rw [hafter]
    exact resetMeetsInvariant

end Sys2Proof.Machine

/-! What a step can change: the registers, the fault state, the accesses and responses, and the work ahead (R20, R72,
R230, R267). -/

namespace Sys2Proof.Machine

/-- From `s` to `s'` the registers of a list of destinations get values of their tags, and no other register changes. -/
def State.WritesOnly (s s' : State) (destinations : List (RegIdx × Tag)) : Prop :=
  (∀ r t, (r, t) ∈ destinations → (s'.reg r).valid = true ∧ (s'.reg r).tag = t) ∧
  ∀ r, (∀ t, (r, t) ∉ destinations) → s'.reg r = s.reg r

/-- `put` writes its one destination (R25). -/
theorem State.writesOnly_put (s : State) (rd : RegIdx) (v : Scalar) (t : Tag) :
    s.WritesOnly (s.put rd v t) [(rd, t)] := by
  refine ⟨fun r u hmem => ?_, fun r hnot => s.reg_put_ne v t ?_⟩
  · simp only [List.mem_singleton, Prod.mk.injEq] at hmem
    obtain ⟨rfl, rfl⟩ := hmem
    simp
  · rintro rfl
    exact hnot t (List.mem_singleton.mpr rfl)

/-- Two `put`s of one tag write their two destinations (R25, R26). -/
theorem State.writesOnly_put_put (s : State) (rd rd2 : RegIdx) (v v2 : Scalar) (t : Tag) :
    s.WritesOnly ((s.put rd v t).put rd2 v2 t) [(rd, t), (rd2, t)] := by
  refine ⟨fun r u hmem => ?_, fun r hnot => ?_⟩
  · simp only [List.mem_cons, Prod.mk.injEq, List.not_mem_nil, or_false] at hmem
    rcases hmem with ⟨rfl, rfl⟩ | ⟨rfl, rfl⟩
    · rw [State.reg_put]
      split <;> simp
    · simp
  · have hrd : r ≠ rd := by rintro rfl; exact hnot t (by simp)
    have hrd2 : r ≠ rd2 := by rintro rfl; exact hnot t (by simp)
    rw [State.reg_put_ne _ _ _ hrd2, State.reg_put_ne _ _ _ hrd]

/-- A retirement is no fault entry: RETIRED changes (R220, R223). -/
theorem State.not_retired_raiseFault (s : State) (c : Cause) (o : Bool) : ¬s.Retired (s.raiseFault c o) := by
  intro hretired
  have hcount : s.retired = s.retired + 1#32 := congrArg State.retired hretired
  simp at hcount

/-- Where `out` is a retirement from `s`, it writes these destinations and no other register. -/
def WritesIfRetired (s : State) (out : Host.Outcome State Fault Refusal) (destinations : List (RegIdx × Tag)) : Prop :=
  ∀ s', out = .next s' → s.Retired s' → s.WritesOnly s' destinations

/-- Running a command to retirement writes what its effect writes. -/
theorem runCommand_writesIfRetired {α : Type} {legal : Bool} {operands : Except OperandFault α}
    {effect : α → State → State} {s : State} {destinations : List (RegIdx × Tag)}
    (heffect : ∀ a, s.WritesOnly (effect a s) destinations) :
    WritesIfRetired s (runCommand legal operands effect s) destinations := by
  intro s' hrun hretired
  rcases runCommand_cases legal operands effect s with ⟨-, h⟩ | ⟨f, -, -, h⟩ | ⟨a, -, -, h⟩ <;> cases h.symm.trans hrun
  · exact absurd hretired (s.not_retired_raiseFault _ _)
  · exact absurd hretired (s.not_retired_raiseFault _ _)
  · exact heffect a

/-- A command that retires writes the destinations R94 lists for it. -/
theorem exec_writesIfRetired (i : Instr) (s : State) : WritesIfRetired s (exec i s) (destinationsOf i) := by
  cases i with
  | split | halve =>
    apply runCommand_writesIfRetired
    exact fun _ => s.writesOnly_put_put ..
  | cmpeq | cmpltu =>
    simp only [exec, execCmpeq, execCmpltu]
    apply runCommand_writesIfRetired
    exact fun _ => s.writesOnly_put ..
  | _ =>
    apply runCommand_writesIfRetired
    exact fun _ => s.writesOnly_put ..

/-- Settles O11: a legal command whose checks all pass retires, and a command that retires writes its destinations. -/
theorem retiringWritesOnlyDestinations : Obligations.RetiringWritesOnlyDestinations := by
  intro i s s' hwf hnone hexec
  obtain ⟨t, hnext, hretired⟩ := (exec_checksInOrder i s).retiring hwf hnone
  cases hnext.symm.trans hexec
  exact ⟨hretired, exec_writesIfRetired i _ s' hexec hretired⟩

/-- The engine's move keeps what the outside sees of its accesses (R72). -/
theorem EngineEffect.outside_eq {s s' : State} (h : EngineEffect s s') :
    s'.waiting = s.waiting ∧ s'.inputs = s.inputs ∧ s'.responses = s.responses := by
  cases h with
  | start _ _ _ _ hstarted => rw [hstarted]; exact ⟨rfl, rfl, rfl⟩
  | fault _ _ _ _ _ _ hfaulted => rw [hfaulted]; exact ⟨rfl, rfl, rfl⟩
  | retire _ _ _ hretired => rw [hretired]; exact ⟨rfl, rfl, rfl⟩

/-- A completed access that clears FAULT is a CTRL write with CLRF (R230). -/
theorem State.ctrlWrite_of_clears {s t : State} {a : HostAccess} {r : Response} (hfault : s.fault = true)
    (hdone : s.hostAccess a = .completes r t) (hclear : t.fault = false) :
    ∃ addr v, a = .write 32 addr v ∧ windowOffset addr = some 0x00C ∧ v.getLsbD 8 = true := by
  cases accessEffect_of_hostAccess hdone with
  | none h | dropped _ h | queued _ _ _ h | data _ _ _ _ _ _ _ _ _ _ h | tag _ _ _ _ _ _ _ _ _ h =>
    rw [h] at hclear
    cases hfault.symm.trans hclear
  | ctrl _ addr v _ haccess hoff hport h =>
    obtain ⟨rfl, rfl⟩ := selectPort_ctrl hport
    rcases s.writeCtrl_cases v with ⟨hclrf, -, -⟩ | ⟨-, hkeeps⟩
    · exact ⟨addr, v, haccess, hoff, hclrf⟩
    · rw [h, hkeeps] at hclear
      cases hfault.symm.trans hclear

@[simp] theorem State.atAccess_fault (s : State) : s.atAccess.fault = s.fault := s.arbitrated_fault

/-- Settles O14: by the cause of the step; a faulted engine does not move, and an access that waits changes no FAULT. -/
theorem onlyClrfOrResetClearsFault : Obligations.OnlyClrfOrResetClearsFault := by
  intro s s' hfault hstep hclear
  cases stepCause_of_step hstep with
  | rest _ hsame =>
    rw [hsame, hfault] at hclear
    cases hclear
  | engine hcan => exact absurd hcan (State.not_engineCanMove_of_fault hfault)
  | access a _ hpresented htakes =>
    right
    have hfaultAt : s.atAccess.fault = true := s.atAccess_fault.trans hfault
    have htaken := htakes
    rcases htaken with ⟨r, t, hdone, hs'⟩ | ⟨-, hs'⟩
    · rw [hs'] at hclear
      obtain ⟨addr, v, rfl, hoff, hclrf⟩ := State.ctrlWrite_of_clears hfaultAt hdone hclear
      exact ⟨addr, v, hpresented, hoff, hclrf, htakes⟩
    · rw [hs'] at hclear
      cases hfaultAt.symm.trans hclear
  | reset rest hinputs hafter => exact .inl (by rw [hafter]; exact hinputs)

/-- An address outside the window has no offset in it (R61). -/
theorem windowOffset_outside {addr : Nat} (h : addr < Config.base ∨ Config.base + 4096 ≤ addr) :
    windowOffset addr = none := by
  rw [windowOffset, if_neg (by omega)]

/-- Settles O55: the bus's move is to try the presented access, which is what `AccessTakes` says; the other causes of a
step touch no access but the one that a reset aborts. -/
theorem hostAccessesInOrder : Obligations.HostAccessesInOrder := by
  refine ⟨fun s a hbus hpresented => ?busMove, fun s s' hstep => ?anyStep, fun s bits off v hoff => ?inside,
    fun s bits addr v hout => ?outside⟩
  case busMove =>
    refine ⟨s.atAccess.tryAccess a, ?_, s.accessTakes_tryAccess a⟩
    rw [step_bus hbus, State.busMove_arbitrated hpresented]
  case anyStep =>
    cases stepCause_of_step hstep with
    | rest _ hsame => exact .inl (by rw [hsame]; exact ⟨rfl, rfl, rfl⟩)
    | engine hcan hmove =>
      left
      simpa using (engineEffect_of_engineMove ((s.canMove_arbitrated .engine).trans hcan) hmove).outside_eq
    | access a _ hpresented htakes => exact .inr (.inl ⟨a, hpresented, htakes⟩)
    | reset rest hinputs hafter =>
      rw [hafter]
      exact .inr (.inr ⟨hinputs, rfl, s.afterReset_responses rest⟩)
  case inside => simp [State.hostAccess, windowOffset_base hoff]
  case outside => simp [State.hostAccess, windowOffset_outside hout]

/-- A completed access that changes a register is a DATA or TAG write of an idle engine, and changes no other (R66,
R67). -/
theorem State.fileWrite_of_regs_ne {s t : State} {a : HostAccess} {r : Response}
    (hdone : s.hostAccess a = .completes r t) (hne : t.regs ≠ s.regs) :
    ∃ bits addr v off i, a = .write bits addr v ∧ windowOffset addr = some off ∧
      ((∃ j, selectPort bits off = some (.data i j)) ∨ selectPort bits off = some (.tag i)) ∧ s.idle = true ∧
      ∀ r, r ≠ i → t.reg r = s.reg r := by
  cases accessEffect_of_hostAccess hdone with
  | none h | dropped _ h | queued _ _ _ h => exact absurd (by rw [h]) hne
  | ctrl _ _ v _ _ _ _ h =>
    obtain ⟨-, -, -, -, hregs⟩ := s.writeCtrl_frame v
    exact absurd (h ▸ hregs) hne
  | data bits addr v off i j haccess hoff hport hidle h =>
    rw [h]
    exact ⟨bits, addr, v, off, i, haccess, hoff, .inl ⟨j, hport⟩, hidle, fun _ hr => s.reg_setReg_ne _ hr⟩
  | tag bits addr v off i haccess hoff hport hidle h =>
    rw [h]
    exact ⟨bits, addr, v, off, i, haccess, hoff, .inr hport, hidle, fun _ hr => s.reg_setReg_ne _ hr⟩

/-- A register reads as the register file says. -/
theorem State.reg_congr {s t : State} (h : t.regs = s.regs) (r : RegIdx) : t.reg r = s.reg r := by
  simp only [State.reg, h]

@[simp] theorem State.atAccess_regs (s : State) : s.atAccess.regs = s.regs := s.arbitrated_regs

/-- Whether the engine is idle depends on its queue and its executing word alone (R33). -/
theorem State.idle_atAccess (s : State) : s.atAccess.idle = s.idle := by
  simp [State.idle, State.atAccess]

/-- What executing a word to retirement says of the word: it is the word of a command, which retires. -/
theorem State.decode_of_executeWord_retired {s s' : State} {w : Word} (hword : s.executeWord w = .next s')
    (hretired : s.Retired s') : ∃ i, decode w = .ok i ∧ exec i s = .next s' := by
  unfold State.executeWord at hword
  cases hdecode : decode w with
  | ok i => exact ⟨i, rfl, by simpa [hdecode] using hword⟩
  | error e =>
    simp only [hdecode, Host.Outcome.next.injEq] at hword
    subst hword
    exact absurd hretired (s.not_retired_raiseFault _ _)

/-- Settles O60: by the cause of the step; of the engine's effects only a retirement writes registers. -/
theorem registersChangeOnlyByCommandsOrHost : Obligations.RegistersChangeOnlyByCommandsOrHost := by
  intro s s' hstep hne
  cases stepCause_of_step hstep with
  | rest _ hsame => exact absurd (by rw [hsame]) hne
  | engine hcan hmove =>
    left
    obtain ⟨hclear, -⟩ := s.engineCanMove_iff.mp hcan
    cases engineEffect_of_engineMove ((s.canMove_arbitrated .engine).trans hcan) hmove with
    | start _ _ _ _ hstarted => exact absurd (by rw [hstarted]; exact s.arbitrated_regs) hne
    | fault _ _ _ _ _ _ hfaulted => exact absurd (by rw [hfaulted]; exact s.arbitrated_regs) hne
    | retire w hexecuting hword hretired =>
      obtain ⟨i, hdecode, hexec⟩ := State.decode_of_executeWord_retired hword hretired
      obtain ⟨-, hframe⟩ := exec_writesIfRetired i _ s' hexec hretired
      exact ⟨w, i, s.arbitrated_executing ▸ hexecuting, hdecode, hclear, hexec, hretired,
        fun r hr => (hframe r hr).trans (State.reg_congr s.arbitrated_regs r)⟩
  | access a _ hpresented htakes =>
    right; left
    have htaken := htakes
    rcases htaken with ⟨r, t, hdone, hs'⟩ | ⟨-, hs'⟩
    · have hregs : s'.regs = t.regs := by rw [hs']
      have hchanged : t.regs ≠ s.atAccess.regs := by rwa [← hregs, s.atAccess_regs]
      obtain ⟨bits, addr, v, off, i, rfl, hoff, hport, hidle, hframe⟩ := State.fileWrite_of_regs_ne hdone hchanged
      exact ⟨bits, addr, v, off, i, hpresented, hoff, hport, s.idle_atAccess ▸ hidle, htakes, fun r hr =>
        (State.reg_congr hregs r).trans ((hframe r hr).trans (State.reg_congr s.atAccess_regs r))⟩
    · exact absurd (by rw [hs']; exact s.atAccess_regs) hne
  | reset rest hinputs hafter =>
    right; right
    rw [hafter]
    exact ⟨hinputs, State.reg_reset⟩

/-- Every move of the engine makes the work ahead smaller: starting a word takes it from the queue, executing ends
it. -/
theorem EngineEffect.work_lt {s s' : State} (h : EngineEffect s s') : s'.work < s.work := by
  cases h with
  | start w rest hnone hqueue hstarted =>
    have hbefore : s.work = 6 * s.inputs.length + (if s.waiting.isSome then 3 else 0) + 2 * (rest.length + 1) := by
      simp [State.work, hnone, hqueue]
    have hafter : s'.work = 6 * s.inputs.length + (if s.waiting.isSome then 3 else 0) + 2 * rest.length + 1 := by
      rw [hstarted]; rfl
    omega
  | fault w hexecuting c o _ _ hfaulted =>
    have hbefore : s.work = 6 * s.inputs.length + (if s.waiting.isSome then 3 else 0) + 2 * s.queue.length + 1 := by
      simp [State.work, hexecuting]
    have hafter : s'.work = 6 * s.inputs.length + (if s.waiting.isSome then 3 else 0) := by
      rw [hfaulted]; rfl
    omega
  | retire w hexecuting _ hretired =>
    rw [hretired]
    simp [State.work, hexecuting]

@[simp] theorem State.work_arbitrated (s : State) : s.arbitrated.work = s.work := by simp [State.work]

/-- The access that the bus takes completes, or waits for the first time. -/
theorem State.waiting_eq_none_of_waits {s : State} {a : HostAccess} (hcan : s.busCanMove = true)
    (hpresented : s.presented = some a) (hwaits : s.atAccess.hostAccess a = .waits) : s.waiting = none := by
  have hwaits' : s.hostAccess a = .waits := (State.hostAccess_waits_congr (by simp [State.atAccess])
    (by simp [State.atAccess]) s.atAccess_fault a).mp hwaits
  rcases State.presented_eq_some_iff.mp hpresented with hwaiting | ⟨hnone, -⟩
  · simp [State.busCanMove, hwaiting, hwaits'] at hcan
  · exact hnone

/-- Taking an access makes the work ahead smaller: a completed access adds one word to the queue at most. -/
theorem State.AccessTakes.work_lt {s s' : State} {a : HostAccess} (htakes : s.AccessTakes s' a)
    (hcan : s.busCanMove = true) (hpresented : s.presented = some a) : s'.work < s.work := by
  have hbefore : s.work = 6 * s.inputs.length + (if s.waiting.isSome then 3 else 0) + 2 * s.queue.length +
      (if s.executing.isSome then 1 else 0) := rfl
  rcases htakes with ⟨r, t, hdone, hs'⟩ | ⟨hwaits, hs'⟩
  · have htaken : 6 * s.atAccess.inputs.length + 3 ≤ 6 * s.inputs.length + (if s.waiting.isSome then 3 else 0) := by
      rcases State.presented_eq_some_iff.mp hpresented with hwaiting | ⟨hnone, rest, hinputs⟩
      · simp [State.atAccess, hwaiting]
      · simp [State.atAccess, hnone, hinputs]
        omega
    obtain ⟨hexecuting, hinputs, -, hqueue⟩ := State.hostAccess_frame hdone
    have hroom : t.queue.length ≤ s.queue.length + 1 := by
      rcases hqueue with h | ⟨v, h⟩ <;> simp [h, State.atAccess]
    have hafter : s'.work = 6 * s.atAccess.inputs.length + 2 * t.queue.length +
        (if s.executing.isSome then 1 else 0) := by
      rw [hs']
      simp [State.work, hinputs, hexecuting, State.atAccess]
    omega
  · have hnone : s.waiting = none := State.waiting_eq_none_of_waits hcan hpresented hwaits
    obtain ⟨rest, hinputs⟩ : ∃ rest, s.inputs = .access a :: rest := by
      simpa [hnone] using State.presented_eq_some_iff.mp hpresented
    have hafter : s'.work = 6 * rest.length + 3 + 2 * s.queue.length + (if s.executing.isSome then 1 else 0) := by
      rw [hs']
      simp [State.work, State.atAccess, hnone, hinputs]
    rw [hinputs, List.length_cons] at hbefore
    omega

/-- Every step makes the work ahead smaller, unless no agent can move. -/
theorem work_lt_of_step {s s' : State} (hstep : step s = .next s') (hmovers : s.movers ≠ []) : s'.work < s.work := by
  cases stepCause_of_step hstep with
  | rest hnone => exact absurd hnone hmovers
  | engine hcan hmove =>
    simpa using (engineEffect_of_engineMove ((s.canMove_arbitrated .engine).trans hcan) hmove).work_lt
  | access a hcan hpresented htakes => exact htakes.work_lt hcan hpresented
  | reset rest hinputs hafter =>
    have hwork : s'.work = 6 * rest.length := by rw [hafter]; rfl
    simp only [State.work, hinputs, List.length_cons] at *
    omega

/-- While the engine is idle no access waits: DATA, TAG and SYNC wait for idle, and the queue has room (R68, R69). -/
theorem State.hostAccess_ne_waits_of_idle {s : State} (hidle : s.idle = true) (a : HostAccess) :
    s.hostAccess a ≠ .waits := by
  obtain ⟨-, hqueue⟩ := s.idle_iff.mp hidle
  obtain ⟨hdepth, -⟩ := qdepth_bounds
  cases a with
  | read bits addr =>
    simp only [State.hostAccess]
    cases windowOffset addr with
    | none => simp
    | some off =>
      cases hport : selectPort bits off with
      | none => simp [State.hostRead, hport]
      | some p => simp [State.hostRead_waits_iff hport, hidle]
  | write bits addr v =>
    simp only [State.hostAccess]
    cases windowOffset addr with
    | none => simp
    | some off =>
      simp only [State.hostWrite]
      cases selectPort bits off with
      | none => simp
      | some p =>
        cases p with
        | cmd =>
          have hroom : s.queue.length < Config.qdepth := by rwa [hqueue]
          cases hfault : s.fault <;> simp [State.offerCommand, hfault, hroom]
        | data | tag => simp [hidle]
        | _ => simp

/-- Where no agent can move, nothing is left to do: the engine is idle, so no access waits (R267). -/
theorem State.atRest_of_no_movers {s : State} (hinv : s.Inv) (hmovers : s.movers = []) : s.AtRest := by
  have hcannot (a : Agent) : s.canMove a ≠ true := fun h => by
    have := State.mem_movers.mpr h
    simp [hmovers] at this
  have hidle : s.idle = true := by
    obtain ⟨-, hfaulted, -⟩ := hinv
    by_contra hbusy
    rw [Bool.not_eq_true] at hbusy
    refine hcannot .engine (s.engineCanMove_iff.mpr ⟨?_, hbusy⟩)
    by_contra hfault
    rw [hfaulted (by simpa using hfault)] at hbusy
    cases hbusy
  have hwaiting : s.waiting = none := by
    cases hw : s.waiting with
    | none => rfl
    | some a =>
      exact absurd (s.busCanMove_iff.mpr (.inl ⟨a, hw, State.hostAccess_ne_waits_of_idle hidle a⟩)) (hcannot .bus)
  refine ⟨hmovers, hwaiting, ?_, hidle⟩
  cases hi : s.inputs with
  | nil => rfl
  | cons x rest =>
    cases x with
    | access a => exact absurd (s.busCanMove_iff.mpr (.inr ⟨hwaiting, a, rest, hi⟩)) (hcannot .bus)
    | reset => exact absurd (s.resetCanMove_iff.mpr ⟨rest, hi⟩) (hcannot .reset)

/-- At rest no work is ahead. -/
theorem State.AtRest.work_eq_zero {s : State} (h : s.AtRest) : s.work = 0 := by
  obtain ⟨-, hwaiting, hinputs, hidle⟩ := h
  obtain ⟨hexecuting, hqueue⟩ := s.idle_iff.mp hidle
  simp [State.work, hwaiting, hinputs, hexecuting, hqueue]

/-- Where no agent can move a step changes nothing (log 16). -/
theorem step_of_no_movers {s : State} (hmovers : s.movers = []) : step s = .next s := by
  rw [step, State.advance, hmovers]

/-- Within a number of steps that bounds the work ahead the machine is at rest. -/
theorem run_comes_to_rest (n : Nat) {s : State} (hinv : s.Inv) (hwork : s.work ≤ n) :
    ∃ s', Sys2Proof.core.run n s = .next s' ∧ s'.AtRest := by
  induction n generalizing s with
  | zero =>
    refine ⟨s, rfl, State.atRest_of_no_movers hinv ?_⟩
    by_contra hmovers
    obtain ⟨s', hstep⟩ := everyStepAnswersNext s
    have := work_lt_of_step hstep hmovers
    omega
  | succ n ih =>
    obtain ⟨s', hstep⟩ := everyStepAnswersNext s
    rw [core_run_succ n hstep]
    refine ih (stepKeepsInvariant s s' hinv hstep) ?_
    by_cases hmovers : s.movers = []
    · cases (step_of_no_movers hmovers).symm.trans hstep
      have hzero := (State.atRest_of_no_movers hinv hmovers).work_eq_zero
      omega
    · have := work_lt_of_step hstep hmovers
      omega

/-- Settles O59: every step makes the work ahead smaller until no agent can move, where the machine is at rest. -/
theorem machineComesToRest : Obligations.MachineComesToRest := fun s hinv => run_comes_to_rest s.work hinv le_rfl

end Sys2Proof.Machine

/-! The host window: its map and its refusals (R61, R63), reads (R78), CMD and CTRL writes (R68, R230), and the STATUS
word (R35, R44). -/

namespace Sys2Proof.Machine

/-- An access of another width than 32 bits, or one that is not aligned, reaches no register (R63). -/
theorem selectPort_malformed {bits off : Nat} (h : bits ≠ 32 ∨ off % 4 ≠ 0) : selectPort bits off = none :=
  if_neg (by omega)

/-- A reserved offset reaches no register (R61). -/
theorem selectPort_reserved (bits : Nat) {off : Nat} (h : ReservedOffset off) : selectPort bits off = none := by
  by_cases hform : bits = 32 ∧ off % 4 = 0
  · rw [selectPort, if_pos hform]
    rcases h with ⟨hmin, hmax⟩ | ⟨i, hmin, hmax⟩ | hmin
    · rw [portAt_above (by omega), if_neg (by omega)]
    · have hi := i.isLt
      rw [portAt_above (by omega), if_pos (by omega), filePort, if_neg (by omega), if_neg (by omega)]
    · rw [portAt_above (by omega), if_neg (by omega)]
  · exact if_neg hform

/-- Settles O45: the registers below SYNC by evaluation, DATA and TAG by their offsets, and the refused accesses. -/
theorem windowMap : Obligations.WindowMap := by
  refine ⟨rfl, rfl, rfl, rfl, rfl, rfl, rfl, rfl, rfl, selectPort_data, fun i => ?tag, fun _ _ => selectPort_malformed,
    fun off hmin hmax => ?below, fun i off hmin hmax => ?between, fun off hmin => ?above⟩
  case tag => rw [show 0x100 + 0x20 * i.toNat + 0x10 = 0x110 + 0x20 * i.toNat by omega, selectPort_tag]
  case below => exact selectPort_reserved 32 (.inl ⟨hmin, hmax⟩)
  case between => exact selectPort_reserved 32 (.inr (.inl ⟨i, hmin, hmax⟩))
  case above => exact selectPort_reserved 32 (.inr (.inr hmin))

/-- An access that reaches no register is refused, with data 0 for a read (R63). -/
theorem State.hostRead_of_no_port (s : State) {bits off : Nat} (h : selectPort bits off = none) :
    s.hostRead bits off = .completes (.refusedRead 0) s := by
  rw [State.hostRead, h]
  rfl

theorem State.hostWrite_of_no_port (s : State) {bits off : Nat} (v : Word) (h : selectPort bits off = none) :
    s.hostWrite bits off v = .completes .refusedWrite s := by
  rw [State.hostWrite, h]

/-- Settles O46: such an access reaches no register, or CMD, which has no word to read, or a register that is read
only. -/
theorem refusedAccesses : Obligations.RefusedAccesses := by
  intro s bits off v
  refine ⟨fun h => ?noPort, fun hcmd => ?readCmd, fun hreadOnly => ?writeReadOnly⟩
  case noPort =>
    have hnone : selectPort bits off = none := by
      rcases h with hbits | halign | hreserved
      · exact selectPort_malformed (.inl hbits)
      · exact selectPort_malformed (.inr halign)
      · exact selectPort_reserved bits hreserved
    exact ⟨s.hostRead_of_no_port hnone, s.hostWrite_of_no_port v hnone⟩
  case readCmd =>
    subst hcmd
    by_cases hbits : bits = 32
    · subst hbits
      rfl
    · exact s.hostRead_of_no_port (selectPort_malformed (.inl hbits))
  case writeReadOnly =>
    by_cases hbits : bits = 32
    · subst hbits
      simp only [List.mem_cons, List.not_mem_nil, or_false] at hreadOnly
      rcases hreadOnly with rfl | rfl | rfl | rfl | rfl | rfl | rfl <;> rfl
    · exact s.hostWrite_of_no_port v (selectPort_malformed (.inl hbits))

/-- Settles O47: each way a read completes keeps the state. -/
theorem hostReadsChangeNothing : Obligations.HostReadsChangeNothing := by
  intro s s' bits off r hread
  unfold State.hostRead at hread
  split at hread
  · cases hread
    rfl
  · split at hread
    · cases hread
      rfl
    · split at hread <;> cases hread
      rfl

/-- A CMD write offers its word to the queue (R68). -/
theorem State.hostWrite_cmd (s : State) (w : Word) : s.hostWrite 32 0x010 w = s.offerCommand w := rfl

/-- A word offered while the engine is not faulted and the queue has room is appended (R68). -/
theorem State.offerCommand_of_room {s : State} (w : Word) (hclear : s.fault = false)
    (hroom : s.queue.length < Config.qdepth) :
    s.offerCommand w = .completes .writeDone { s with queue := s.queue ++ [w] } := by
  simp [State.offerCommand, hclear, hroom]

/-- Settles O51: by FAULT and the room in the queue, which by the invariant holds at most QDEPTH words. -/
theorem cmdWrite : Obligations.CmdWrite := by
  rintro s w ⟨hdepth, -⟩
  rw [s.hostWrite_cmd]
  refine ⟨fun hfault => ?dropped, fun hclear hfull => ?waits, fun hclear hroom => ?appended⟩
  case dropped => simp [State.offerCommand, hfault]
  case waits => simp [State.offerCommand, hclear, hfull]
  case appended => exact State.offerCommand_of_room w hclear (by omega)

/-- A CTRL write with CLRF leaves every fault field 0, also where FAULT was 0, by the invariant (R230). -/
theorem State.writeCtrl_of_clrf {s : State} (hinv : s.Inv) {v : Word} (hclrf : v.getLsbD 8 = true) :
    s.writeCtrl v =
      { s with fie := v.getLsbD 0, fault := false, drop := false, fcause := .none, fopnd := false } := by
  rcases s.writeCtrl_cases v with ⟨-, -, h⟩ | ⟨hkeeps, h⟩
  · exact h
  · have hclear : s.fault = false := hkeeps.resolve_left (by simp [hclrf])
    obtain ⟨-, hdrop, hcause, hopnd⟩ := (State.inv_iff_of_clear hclear).mp hinv
    simp only [h, hclear, hdrop, hcause, hopnd]

/-- A CTRL write without CLRF, or at FAULT = 0, writes FIE alone (R36, R230). -/
theorem State.writeCtrl_of_keeps {s : State} {v : Word} (hkeeps : v.getLsbD 8 = false ∨ s.fault = false) :
    s.writeCtrl v = { s with fie := v.getLsbD 0 } := by
  rcases s.writeCtrl_cases v with ⟨hclrf, hfault, -⟩ | ⟨-, h⟩
  · rcases hkeeps with hkeeps | hkeeps
    · cases hclrf.symm.trans hkeeps
    · cases hfault.symm.trans hkeeps
  · exact h

/-- Settles O52: a faulted engine is idle, so that after CLRF the queue is empty and has room for a word. -/
theorem ctrlWriteAndClrf : Obligations.CtrlWriteAndClrf := by
  intro s v w hinv
  simp only [State.hostWrite_ctrl, State.hostWrite_cmd]
  refine ⟨fun hclrf => by rw [State.writeCtrl_of_clrf hinv hclrf],
    fun hkeeps => by rw [State.writeCtrl_of_keeps hkeeps], fun hclrf hfault => ⟨s.writeCtrl v, rfl, ?_⟩⟩
  rw [State.writeCtrl_of_clrf hinv hclrf]
  obtain ⟨-, hidle, -⟩ := hinv
  obtain ⟨hexecuting, hqueue⟩ := s.idle_iff.mp (hidle hfault)
  obtain ⟨hdepth, -⟩ := qdepth_bounds
  refine ⟨hqueue, hexecuting, ?_⟩
  rw [State.offerCommand_of_room w rfl (by rwa [hqueue]), hqueue, List.nil_append]

/-- A bit of STATUS as a number. -/
theorem toNat_ofBool_eq_ite (b : Bool) : (BitVec.ofBool b).toNat = if b then 1 else 0 := by cases b <;> rfl

/-- FCAUSE holds the code of the cause (R225). -/
theorem toNat_code (c : Cause) : c.code.toNat = causeNumber c := by cases c <;> rfl

/-- QLEVEL counts the queue exactly, since QDEPTH fits in its byte (R35). -/
theorem State.toNat_qlevel {s : State} (hinv : s.Inv) : s.qlevel.toNat = s.queue.length := by
  obtain ⟨hdepth, -⟩ := hinv
  obtain ⟨-, hmax⟩ := qdepth_bounds
  rw [State.qlevel, BitVec.toNat_ofNat]
  exact Nat.mod_eq_of_lt (by omega)

/-- BUSY is 0 exactly where nothing is queued or executing (R35). -/
theorem State.toNat_busy (s : State) :
    (BitVec.ofBool s.busy).toNat = if s.queue = [] ∧ s.executing = none then 0 else 1 := by
  have hidle : s.idle = decide (s.queue = [] ∧ s.executing = none) := by
    rw [Bool.eq_iff_iff, decide_eq_true_iff, s.idle_iff, and_comm]
  rw [toNat_ofBool_eq_ite, State.busy, hidle]
  by_cases h : s.queue = [] ∧ s.executing = none <;> simp [h]

/-- Bit 1 of STATUS is FAULT (R35). -/
theorem State.getLsbD_statusWord_one (s : State) : s.statusWord.getLsbD 1 = s.fault := by
  simp only [State.statusWord, BitVec.getLsbD_append]
  simp

/-- Settles O54: STATUS is its fields side by side, each the number that the spec gives it. -/
theorem statusWordFields : Obligations.StatusWordFields := by
  intro s hinv
  refine ⟨?_, by rw [s.getLsbD_statusWord_one]; rfl⟩
  simp only [State.statusWord, toNat_append_add, s.toNat_busy, toNat_ofBool_eq_ite, toNat_code,
    State.toNat_qlevel hinv, BitVec.toNat_ofNat]
  split_ifs <;> omega

end Sys2Proof.Machine

/-! The laws of the commands: SPLIT and MERGE, HALVE and UNION, the broadcast, the chained sums, and the corner cases of
the distances (41_split_union.md, 42_sums.md, 43_distance.md). -/

namespace Sys2Proof.Machine

/-- Settles O40: a lane is its bits, which are K in number. -/
theorem laneIsBitField : Obligations.LaneIsBitField := by
  intro k i v _ _
  exact ⟨by rw [BitVec.extractLsb'_toNat, lane, BitVec.toNat_ushiftRight], lane_lt ..⟩

/-- Commands run one after another from the state that the first one answers. -/
theorem runCommands_cons {i : Instr} {s s' : State} (h : exec i s = .next s') (rest : List Instr) :
    runCommands (i :: rest) s = runCommands rest s' := by
  rw [runCommands, h]

/-- A run of one command is its meaning. -/
theorem runCommands_singleton {i : Instr} {s s' : State} (h : exec i s = .next s') : runCommands [i] s = .next s' := by
  rw [runCommands_cons h, runCommands]

/-- A register that was written holds a value of the tag written (R25). -/
theorem State.holds_of_reg_eq {s : State} {r : RegIdx} {t : Tag} {v : Scalar} (h : s.reg r = ⟨true, t, v⟩) :
    s.Holds r t := by
  rw [State.Holds, h]
  exact ⟨rfl, rfl⟩

/-- A retirement counts one command (R32). -/
theorem State.Retired.retired_eq {s s' : State} (h : s.Retired s') : s'.retired = s.retired + 1#32 := by
  rw [h]

/-- Two scalars with the same odd and the same even lanes are equal. -/
theorem eq_of_odd_even_lanes {t : Tag} (ht : t.toNat ≤ 6) {u v : Scalar}
    (h : ∀ j, j < 128 / (2 * 2 ^ t.toNat) →
      lane (2 ^ t.toNat) u (2 * j + 1) = lane (2 ^ t.toNat) v (2 * j + 1) ∧
      lane (2 ^ t.toNat) u (2 * j) = lane (2 ^ t.toNat) v (2 * j)) : u = v := by
  obtain ⟨n, hdouble, hall, -, -⟩ := laneCounts ht
  refine eq_of_lanes (laneWidth_pos t) (laneWidth_dvd (by omega)) fun i hi => ?_
  obtain ⟨hodd, heven⟩ := h (i / 2) (by omega)
  rcases Nat.mod_two_eq_zero_or_one i with hparity | hparity
  · rwa [show 2 * (i / 2) = i by omega] at heven
  · rwa [show 2 * (i / 2) + 1 = i by omega] at hodd

/-- Two scalars with the same lanes in the upper and in the lower half are equal. -/
theorem eq_of_half_lanes {t : Tag} (ht : t.toNat ≤ 6) {u v : Scalar}
    (h : ∀ j, j < 64 / 2 ^ t.toNat →
      lane (2 ^ t.toNat) u (64 / 2 ^ t.toNat + j) = lane (2 ^ t.toNat) v (64 / 2 ^ t.toNat + j) ∧
      lane (2 ^ t.toNat) u j = lane (2 ^ t.toNat) v j) : u = v := by
  obtain ⟨n, -, hall, -, hhalf⟩ := laneCounts ht
  refine eq_of_lanes (laneWidth_pos t) (laneWidth_dvd (by omega)) fun i hi => ?_
  by_cases hlow : i < 64 / 2 ^ t.toNat
  · exact (h i hlow).2
  · have hupper := (h (i - 64 / 2 ^ t.toNat) (by omega)).1
    rwa [show 64 / 2 ^ t.toNat + (i - 64 / 2 ^ t.toNat) = i by omega] at hupper

/-- Settles O34: the odd lanes come back from the first result of SPLIT and the even lanes from the second. -/
theorem mergeUndoesSplit : Obligations.MergeUndoesSplit := by
  intro s t rd rd2 rs1 rx ht hne hholds
  obtain ⟨-, -, hsplit⟩ := splitResult s t rd rd2 rs1
  obtain ⟨s₁, hi, lo, hexec₁, ⟨hretired₁, hrd, hrd2, -⟩, hlanes⟩ := hsplit ht hne hholds
  obtain ⟨-, -, hmerge⟩ := mergeResult s₁ t rx rd rd2
  obtain ⟨s₂, v, hexec₂, ⟨hretired₂, hrx, -⟩, hmerged⟩ :=
    hmerge ht (State.holds_of_reg_eq hrd) (State.holds_of_reg_eq hrd2)
  have hvalue : v = (s.reg rs1).data := by
    refine eq_of_odd_even_lanes ht fun j hj => ?_
    obtain ⟨hodd, heven⟩ := hmerged j hj
    obtain ⟨hhi, hlo⟩ := hlanes j hj
    rw [hodd, heven, hrd, hrd2, hhi, hlo]
    exact ⟨Nat.mod_eq_of_lt (lane_lt ..), Nat.mod_eq_of_lt (lane_lt ..)⟩
  refine ⟨s₂, by rw [runCommands_cons hexec₁, runCommands_singleton hexec₂], by rw [hrx, hvalue], ?_⟩
  rw [hretired₂.retired_eq, hretired₁.retired_eq, BitVec.add_assoc]
  rfl

/-- Settles O35: the upper lanes come back from the first result of HALVE and the lower lanes from the second. -/
theorem unionUndoesHalve : Obligations.UnionUndoesHalve := by
  intro s t rd rd2 rs1 rx ht hne hholds
  obtain ⟨-, -, hhalve⟩ := halveResult s t rd rd2 rs1
  obtain ⟨s₁, left, right, hexec₁, ⟨hretired₁, hrd, hrd2, -⟩, hlanes⟩ := hhalve ht hne hholds
  obtain ⟨-, -, hunion⟩ := unionResult s₁ t rx rd rd2
  obtain ⟨s₂, v, hexec₂, ⟨hretired₂, hrx, -⟩, hunited⟩ :=
    hunion ht (State.holds_of_reg_eq hrd) (State.holds_of_reg_eq hrd2)
  have hvalue : v = (s.reg rs1).data := by
    refine eq_of_half_lanes ht fun j hj => ?_
    obtain ⟨hupper, hlower⟩ := hunited j hj
    obtain ⟨hleft, hright⟩ := hlanes j hj
    rw [hupper, hlower, hrd, hrd2, hleft, hright]
    exact ⟨Nat.mod_eq_of_lt (lane_lt ..), Nat.mod_eq_of_lt (lane_lt ..)⟩
  refine ⟨s₂, by rw [runCommands_cons hexec₁, runCommands_singleton hexec₂], by rw [hrx, hvalue], ?_⟩
  rw [hretired₂.retired_eq, hretired₁.retired_eq, BitVec.add_assoc]
  rfl

/-- A double lane width divides 128 too (R4). -/
theorem double_laneWidth_dvd {t : Tag} (ht : t.toNat ≤ 6) : 2 * 2 ^ t.toNat ∣ 128 := by
  rw [← pow_succ']
  exact pow_dvd_pow 2 (show t.toNat + 1 ≤ 7 by omega)

/-- Settles O36: every lane of the broadcast is the scalar, so both results have it in every double lane. -/
theorem splitOfBroadcastIsEqualPair : Obligations.SplitOfBroadcastIsEqualPair := by
  intro s t rd rd2 rs1 ht hne hholds hfits
  obtain ⟨n, hdouble, hall, -, -⟩ := laneCounts ht
  obtain ⟨-, -, hbcast⟩ := bcastResult s t rd rs1
  obtain ⟨s₁, v, hexec₁, ⟨-, hrd, -⟩, -, hcopies⟩ := hbcast (by omega) hholds
  obtain ⟨-, -, hsplit⟩ := splitResult s₁ t rd rd2 rd
  obtain ⟨s₂, hi, lo, hexec₂, ⟨-, hrd', hrd2, -⟩, hlanes⟩ := hsplit ht hne (State.holds_of_reg_eq hrd)
  have hcopy (i : Nat) (h : i < 2 * n) : lane (2 ^ t.toNat) (s₁.reg rd).data i = (s.reg rs1).data.toNat := by
    rw [hrd]
    exact hcopies hfits i (hall ▸ h)
  have hhi (j : Nat) (hj : j < 128 / (2 * 2 ^ t.toNat)) : lane (2 * 2 ^ t.toNat) hi j = (s.reg rs1).data.toNat :=
    (hlanes j hj).1.trans (hcopy _ (by omega))
  have hlo (j : Nat) (hj : j < 128 / (2 * 2 ^ t.toNat)) : lane (2 * 2 ^ t.toNat) lo j = (s.reg rs1).data.toNat :=
    (hlanes j hj).2.trans (hcopy _ (by omega))
  have hequal : hi = lo :=
    eq_of_lanes (by positivity) (double_laneWidth_dvd ht) fun j hj => (hhi j hj).trans (hlo j hj).symm
  exact ⟨s₂, by rw [runCommands_cons hexec₁, runCommands_singleton hexec₂], by rw [hrd', hrd2, hequal],
    fun j hj => by rw [hrd']; exact hhi j hj⟩

/-- A sum over twice as many indices, by pairs. -/
theorem sumUpTo_double (n : Nat) (f : Nat → Nat) :
    sumUpTo (2 * n) f = sumUpTo n fun j => f (2 * j) + f (2 * j + 1) := by
  induction n with
  | zero => rfl
  | succ n ih => rw [Nat.mul_succ, sumUpTo, sumUpTo, sumUpTo, ih, Nat.add_assoc]

/-- Sums of equal terms are equal. -/
theorem sumUpTo_congr {n : Nat} {f g : Nat → Nat} (h : ∀ i, i < n → f i = g i) : sumUpTo n f = sumUpTo n g := by
  induction n with
  | zero => rfl
  | succ n ih => rw [sumUpTo, sumUpTo, ih fun i hi => h i (by omega), h n (by omega)]

/-- Where the double lanes of `v` are the sums of adjacent lanes of `a`, the sum of all lanes is the same (R160,
R161). -/
theorem sumLanes_of_pairs {t : Tag} (ht : t.toNat ≤ 6) {a v : Scalar}
    (h : ∀ j, j < 128 / (2 * 2 ^ t.toNat) →
      lane (2 * 2 ^ t.toNat) v j = lane (2 ^ t.toNat) a (2 * j) + lane (2 ^ t.toNat) a (2 * j + 1)) :
    sumLanes (2 * 2 ^ t.toNat) v = sumLanes (2 ^ t.toNat) a := by
  obtain ⟨n, hdouble, hall, -, -⟩ := laneCounts ht
  rw [sumLanes, sumLanes, sumUpTo_congr h, hdouble, show 128 / 2 ^ t.toNat = 2 * n from hall, sumUpTo_double]

/-- The next tag is that of the double lane width (R22). -/
theorem laneWidth_succ {t : Tag} (ht : t.toNat ≤ 6) : 2 ^ (t + 1#4).toNat = 2 * 2 ^ t.toNat := by
  rw [← pow_succ', BitVec.toNat_add, BitVec.toNat_ofNat]
  congr 1
  omega

/-- SUMW2 in place: the lane width doubles, and the sum of all lanes stays (R160). -/
theorem exec_sumw2_keeps_sum {s : State} {t : Tag} {r : RegIdx} (ht : t.toNat ≤ 6) (hholds : s.Holds r t) :
    ∃ s' v, exec (.sumw2 t r r) s = .next s' ∧ s'.reg r = ⟨true, t + 1#4, v⟩ ∧ s'.retired = s.retired + 1#32 ∧
      sumLanes (2 ^ (t + 1#4).toNat) v = sumLanes (2 ^ t.toNat) (s.reg r).data := by
  obtain ⟨-, -, hsumw2⟩ := sumw2Result s t r r
  obtain ⟨s', v, hexec, ⟨hretired, hr, -⟩, hpairs⟩ := hsumw2 ht hholds
  exact ⟨s', v, hexec, hr, hretired.retired_eq, by rw [laneWidth_succ ht, sumLanes_of_pairs ht hpairs]⟩

/-- SUMW's value is the sum of all lanes as a number (R161). -/
theorem exec_sumw_sum {s : State} {t : Tag} (rd : RegIdx) {rs1 : RegIdx} (ht : t.toNat ≤ 7) (hholds : s.Holds rs1 t) :
    ∃ s', exec (.sumw t rd rs1) s = .next s' ∧
      s'.reg rd = ⟨true, 15#4, BitVec.ofNat 128 (sumLanes (2 ^ t.toNat) (s.reg rs1).data)⟩ := by
  obtain ⟨-, -, hsumw⟩ := sumwResult s t rd rs1
  obtain ⟨s', v, hexec, ⟨-, hrd, -⟩, hsum⟩ := hsumw ht hholds
  refine ⟨s', hexec, ?_⟩
  rw [hrd, sumLanes_eq, ← hsum, BitVec.ofNat_toNat, BitVec.setWidth_eq]

/-- Settles O38: SUMW gives the sum of all lanes, which SUMW2 keeps. -/
theorem sumwIsPairwiseSumsChained : Obligations.SumwIsPairwiseSumsChained := by
  intro s t r ht hholds
  obtain ⟨s₁, hexec, hr⟩ := exec_sumw_sum r (by omega) hholds
  obtain ⟨u, v, hexec', hr', -, hsum⟩ := exec_sumw2_keeps_sum ht hholds
  have ht' : (t + 1#4).toNat ≤ 7 := by rw [BitVec.toNat_add, BitVec.toNat_ofNat]; omega
  obtain ⟨s₂, hexec₂, hr₂⟩ := exec_sumw_sum r ht' (State.holds_of_reg_eq hr')
  refine ⟨s₁, s₂, hexec, by rw [runCommands_cons hexec', runCommands_singleton hexec₂], ?_⟩
  rw [hr, hr₂, hr', hsum]

/-- `n` commands SUMW2 on one register, the first from lane width 2^k. -/
def pairwiseSums (r : RegIdx) : Nat → Nat → List Instr
  | _, 0 => []
  | k, n + 1 => .sumw2 (BitVec.ofNat 4 k) r r :: pairwiseSums r (k + 1) n

/-- Pairwise sums up to tag 7 keep the sum of all lanes (R160). -/
theorem runCommands_pairwiseSums (r : RegIdx) (n k : Nat) (hk : k + n ≤ 7) {s : State}
    (hholds : s.Holds r (BitVec.ofNat 4 k)) :
    ∃ s', runCommands (pairwiseSums r k n) s = .next s' ∧ s'.Holds r (BitVec.ofNat 4 (k + n)) ∧
      s'.retired = s.retired + BitVec.ofNat 32 n ∧
      sumLanes (2 ^ (k + n)) (s'.reg r).data = sumLanes (2 ^ k) (s.reg r).data := by
  induction n generalizing k s with
  | zero => exact ⟨s, rfl, hholds, by simp, rfl⟩
  | succ n ih =>
    have hcode (m : Nat) (hm : m ≤ 7) : (BitVec.ofNat 4 m).toNat = m := by
      rw [BitVec.toNat_ofNat]
      exact Nat.mod_eq_of_lt (by omega)
    have hnext : BitVec.ofNat 4 k + 1#4 = BitVec.ofNat 4 (k + 1) := (BitVec.ofNat_add ..).symm
    obtain ⟨u, v, hexec, hr, hcount, hsum⟩ := exec_sumw2_keeps_sum (by rw [hcode k (by omega)]; omega) hholds
    rw [hnext] at hr hsum
    rw [hcode _ (by omega), hcode _ (by omega)] at hsum
    obtain ⟨s', hrun, hholds', hcount', hsum'⟩ := ih (k + 1) (by omega) (State.holds_of_reg_eq hr)
    have hindex : k + 1 + n = k + (n + 1) := by omega
    rw [hindex] at hholds' hsum'
    refine ⟨s', by rw [pairwiseSums, runCommands_cons hexec, hrun], hholds', ?_, ?_⟩
    · rw [hcount', hcount, BitVec.add_assoc, ← BitVec.ofNat_add, Nat.add_comm 1 n]
    · rw [hsum', hr, hsum]

/-- A lane of width 1 is a bit. -/
theorem lane_one (v : Scalar) (i : Nat) : lane 1 v i = (v.getLsbD i).toNat := by
  refine lane_eq_of_bits (by cases v.getLsbD i <;> simp) fun b hb => ?_
  obtain rfl : b = 0 := by omega
  cases h : v.getLsbD i <;> simp [h]

/-- At width 1 the sum of all lanes is the population count. -/
theorem sumLanes_one (a : Scalar) : sumLanes 1 a = popcount a := sumUpTo_congr fun p _ => lane_one a p

/-- At width 128 there is one lane, the whole scalar. -/
theorem sumLanes_all (a : Scalar) : sumLanes 128 a = a.toNat := by
  simp [sumLanes, sumUpTo, lane, Nat.mod_eq_of_lt a.isLt]

/-- Settles O37: seven pairwise sums keep the sum of all lanes, from width 1, where it is the count, to width 128, where
it is the value. -/
theorem sevenPairwiseSumsCountOnes : Obligations.SevenPairwiseSumsCountOnes := by
  intro s r hholds
  obtain ⟨s', hrun, ⟨hvalid, htag⟩, hcount, hsum⟩ := runCommands_pairwiseSums r 7 0 (by omega) hholds
  refine ⟨s', (s'.reg r).data, hrun, ?_, hcount, ?_⟩
  · exact (DataReg.mk.injEq ..).mpr ⟨hvalid, htag, rfl⟩
  · rw [← popcount_eq, ← sumLanes_one, ← sumLanes_all]
    exact hsum

/-- MINHWD and MAXHWD of sources that can be read write their value and retire (R181, R182). -/
theorem exec_minhwd {s : State} {t : Tag} (rd : RegIdx) {rs1 rs2 : RegIdx} (ht : t.toNat ≤ 7) (h₁ : s.Holds rs1 t)
    (h₂ : s.Holds rs2 t) : exec (.minhwd t rd rs1 rs2) s =
      .next (s.put rd (minDistance (laneWidth t) (s.reg rs1).data (s.reg rs2).data) t).retire := by
  have hwf : (Instr.minhwd t rd rs1 rs2).wellFormed = true := wellFormed_of_tagLegal rfl rfl ht
  exact runCommand_two (fun p s => s.put rd (minDistance (laneWidth t) p.1 p.2) t) hwf h₁ h₂

theorem exec_maxhwd {s : State} {t : Tag} (rd : RegIdx) {rs1 rs2 : RegIdx} (ht : t.toNat ≤ 7) (h₁ : s.Holds rs1 t)
    (h₂ : s.Holds rs2 t) : exec (.maxhwd t rd rs1 rs2) s =
      .next (s.put rd (maxDistance (laneWidth t) (s.reg rs1).data (s.reg rs2).data) t).retire := by
  have hwf : (Instr.maxhwd t rd rs1 rs2).wellFormed = true := wellFormed_of_tagLegal rfl rfl ht
  exact runCommand_two (fun p s => s.put rd (maxDistance (laneWidth t) p.1 p.2) t) hwf h₁ h₂

/-- MINHWD is symmetric (R181). -/
theorem minDistance_comm (K : Nat) (a b : Scalar) : minDistance K a b = minDistance K b a := by
  simp only [minDistance, absDiff_comm]

/-- MAXHWD is symmetric: so is its exception (R182). -/
theorem maxDistance_comm (K : Nat) (a b : Scalar) : maxDistance K a b = maxDistance K b a := by
  have hlane (p q : Nat) : maxDistanceLane K p q = maxDistanceLane K q p := by
    simp only [maxDistanceLane, absDiff_comm p q, and_comm (a := p = 1)]
  simp only [maxDistance, hlane (lane K a _)]

/-- MAXHWD has its exception at K = 2 only (R182). -/
theorem maxDistance_eq_minDistance {K : Nat} (hK : K ≠ 2) (a b : Scalar) : maxDistance K a b = minDistance K a b := by
  simp only [maxDistance, minDistance, maxDistanceLane, hK, false_and, if_false]

/-- MINHWD of equal operands is 0 (R181). -/
theorem minDistance_self {t : Tag} (ht : t.toNat ≤ 7) (a : Scalar) : minDistance (laneWidth t) a a = 0 := by
  refine eq_of_lanes (laneWidth_pos t) (laneWidth_dvd ht) fun i hi => ?_
  rw [lane_minDistance _ _ hi, absDiff_self]
  simp [lane]

/-- MINHWD at K = 1 is the exclusive or (R181). -/
theorem minDistance_one (a b : Scalar) : minDistance 1 a b = a ^^^ b := by
  refine eq_of_lanes one_pos (one_dvd _) fun i hi => ?_
  rw [lane_minDistance _ _ hi, lane_one, lane_one, lane_one, BitVec.getLsbD_xor]
  cases a.getLsbD i <;> cases b.getLsbD i <;> rfl

/-- Settles O39: the values of the four commands, by the corner cases of the two distances. -/
theorem distanceCornerCases : Obligations.DistanceCornerCases := by
  intro s t rd rs1 rs2 ht h₁ h₂
  refine ⟨_, _, exec_minhwd rd ht h₁ h₂, exec_maxhwd rd ht h₁ h₂, ?minSymm, ?maxSymm, fun hne => ?equal,
    fun heq => ?zero, fun hone => ?xor⟩
  case minSymm => rw [exec_minhwd rd ht h₂ h₁, minDistance_comm]
  case maxSymm => rw [exec_maxhwd rd ht h₂ h₁, maxDistance_comm]
  case equal => rw [maxDistance_eq_minDistance (mt (laneWidth_eq_two_iff t).mp hne)]
  case zero => rw [heq, minDistance_self ht, State.reg_retire, State.reg_put_self]
  case xor => rw [State.reg_retire, State.reg_put_self, hone, ← minDistance_one]; rfl

end Sys2Proof.Machine

/-! The assembler on a printed line: HWD and MINHWD with three registers (R98, R99). -/

namespace Sys2Proof.Machine

/-- A text without the separator is one piece. -/
theorem splitAtChar_of_not_mem {c : Char} {xs : List Char} (h : c ∉ xs) : splitAtChar c xs = [xs] := by
  induction xs with
  | nil => rfl
  | cons x xs ih =>
    rw [List.mem_cons, not_or] at h
    obtain ⟨hx, hxs⟩ := h
    rw [splitAtChar, if_neg (Ne.symm hx), ih hxs]

/-- The first piece of a text ends at the first separator. -/
theorem splitAtChar_append {c : Char} {xs : List Char} (h : c ∉ xs) (ys : List Char) :
    splitAtChar c (xs ++ c :: ys) = xs :: splitAtChar c ys := by
  induction xs with
  | nil => simp [splitAtChar]
  | cons x xs ih =>
    rw [List.mem_cons, not_or] at h
    obtain ⟨hx, hxs⟩ := h
    rw [List.cons_append, splitAtChar, if_neg (Ne.symm hx), ih hxs]

/-- A text that neither begins nor ends with a blank has none to trim. -/
theorem trimBlanks_eq_self {cs : List Char} (hfirst : ∀ c ∈ cs.head?, isBlank c = false)
    (hlast : ∀ c ∈ cs.getLast?, isBlank c = false) : trimBlanks cs = cs := by
  have hkeep (ds : List Char) (h : ∀ c ∈ ds.head?, isBlank c = false) : ds.dropWhile isBlank = ds := by
    cases ds with
    | nil => rfl
    | cons d ds => simp [h d rfl]
  rw [trimBlanks, hkeep cs hfirst, hkeep cs.reverse (by rwa [List.head?_reverse]), List.reverse_reverse]

/-- A register name is read back, with or without the blank that a printed line has before it (R98). -/
theorem parseRegister_nameAt : ∀ r : RegIdx,
    parseRegister (trimBlanks (' ' :: nameAt registerNames r)) = some r := by decide

/-- A suffix is read back (R22, R98). -/
theorem parseSuffix_nameAt : ∀ t : Tag, parseSuffix (nameAt suffixNames t) = some t := by decide

/-- A character of the names that the assembler reads: no blank and no separator (R98, log 15). -/
def isNameChar (c : Char) : Bool := !isBlank c && c != ';' && c != ',' && c != '.'

/-- The register names and the suffixes are made of such characters. -/
theorem registerNames_chars (r : RegIdx) : ∀ c ∈ nameAt registerNames r, isNameChar c = true := by
  have hall : ∀ r : RegIdx, (nameAt registerNames r).all isNameChar = true := by decide
  exact List.all_eq_true.mp (hall r)

theorem suffixNames_chars (t : Tag) : ∀ c ∈ nameAt suffixNames t, isNameChar c = true := by
  have hall : ∀ t : Tag, (nameAt suffixNames t).all isNameChar = true := by decide
  exact List.all_eq_true.mp (hall t)

/-- The suffixes are written in lower case (R22, R98). -/
theorem suffixNames_toLower : ∀ t : Tag, (nameAt suffixNames t).map Char.toLower = nameAt suffixNames t := by decide

/-- A separator is in no name. -/
theorem not_mem_of_isNameChar {cs : List Char} {c : Char} (hcs : ∀ d ∈ cs, isNameChar d = true)
    (hc : isNameChar c = false) : c ∉ cs := by
  intro hmem
  rw [hcs c hmem] at hc
  cases hc

/-- No character of a name is a blank. -/
theorem isBlank_of_isNameChar {c : Char} (h : isNameChar c = true) : isBlank c = false := by
  simp only [isNameChar, Bool.and_eq_true, Bool.not_eq_true'] at h
  obtain ⟨⟨⟨hblank, -⟩, -⟩, -⟩ := h
  exact hblank

/-- The operands of a printed line are read back (R98). -/
theorem parseRegisters_printOperands (rd rs1 rs2 : RegIdx) :
    parseRegisters (splitAtChar ',' (' ' :: printOperands [rd, rs1, rs2])) = some [rd, rs1, rs2] := by
  have hcomma (r : RegIdx) : ',' ∉ ' ' :: nameAt registerNames r := by
    simpa using not_mem_of_isNameChar (registerNames_chars r) rfl
  have hpieces : splitAtChar ',' (' ' :: printOperands [rd, rs1, rs2]) =
      [' ' :: nameAt registerNames rd, ' ' :: nameAt registerNames rs1, ' ' :: nameAt registerNames rs2] := by
    have hline : ' ' :: printOperands [rd, rs1, rs2] = (' ' :: nameAt registerNames rd) ++ ',' ::
        ((' ' :: nameAt registerNames rs1) ++ ',' :: (' ' :: nameAt registerNames rs2)) := by
      simp [printOperands]
    rw [hline, splitAtChar_append (hcomma rd), splitAtChar_append (hcomma rs1), splitAtChar_of_not_mem (hcomma rs2)]
  rw [hpieces]
  simp [parseRegisters, parseRegister_nameAt]

/-- A printed line is the mnemonic with its suffix, a blank, and the operands. -/
theorem asmLine_eq (mnemonic : List Char) (t : Tag) (operands : List RegIdx) :
    asmLine mnemonic t operands =
      (mnemonic ++ '.' :: nameAt suffixNames t) ++ ' ' :: printOperands operands := by
  simp [asmLine]

theorem registerNames_ne_nil : ∀ r : RegIdx, nameAt registerNames r ≠ [] := by decide

/-- A printed line has no comment (R98). -/
theorem ne_semicolon_of_mem_asmLine {mnemonic : List Char} (hchars : ∀ c ∈ mnemonic, isNameChar c = true) (t : Tag)
    (rd rs1 rs2 : RegIdx) : ∀ c ∈ asmLine mnemonic t [rd, rs1, rs2], c ≠ ';' := by
  have hname {cs : List Char} (hcs : ∀ d ∈ cs, isNameChar d = true) : ';' ∉ cs := not_mem_of_isNameChar hcs rfl
  have hsuffix : ';' ∉ nameAt suffixNames t := hname (suffixNames_chars t)
  have hregister (r : RegIdx) : ';' ∉ nameAt registerNames r := hname (registerNames_chars r)
  rintro c hc rfl
  simp [asmLine_eq, printOperands, hname hchars, hsuffix, hregister] at hc

/-- A printed line neither begins nor ends with a blank (log 15). -/
theorem trimBlanks_asmLine {mnemonic : List Char} (hne : mnemonic ≠ []) (hchars : ∀ c ∈ mnemonic, isNameChar c = true)
    (t : Tag) (rd rs1 rs2 : RegIdx) :
    trimBlanks (asmLine mnemonic t [rd, rs1, rs2]) = asmLine mnemonic t [rd, rs1, rs2] := by
  refine trimBlanks_eq_self (fun c hc => isBlank_of_isNameChar ?first) (fun c hc => isBlank_of_isNameChar ?last)
  case first =>
    rw [asmLine_eq, List.append_assoc, List.head?_append_of_ne_nil _ hne] at hc
    exact hchars c (List.mem_of_mem_head? hc)
  case last =>
    have hline : asmLine mnemonic t [rd, rs1, rs2] =
        asmLine mnemonic t [rd, rs1] ++ [',', ' '] ++ nameAt registerNames rs2 := by simp [asmLine, printOperands]
    rw [hline, List.getLast?_append_of_ne_nil _ (registerNames_ne_nil rs2)] at hc
    exact registerNames_chars rs2 c (List.mem_of_mem_getLast? hc)

/-- Assembling a printed line of three registers builds the command of its mnemonic in lower case (R98). -/
theorem assemble_asmLine {mnemonic : List Char} (hne : mnemonic ≠ []) (hchars : ∀ c ∈ mnemonic, isNameChar c = true)
    (hlower : '.' ∉ mnemonic.map Char.toLower) (t : Tag) (rd rs1 rs2 : RegIdx) :
    assemble (asmLine mnemonic t [rd, rs1, rs2]) =
      buildCommand (mnemonic.map Char.toLower) t [rd, rs1, rs2] := by
  have htext : (asmLine mnemonic t [rd, rs1, rs2]).takeWhile (· ≠ ';') = asmLine mnemonic t [rd, rs1, rs2] := by
    simpa [List.takeWhile_eq_self_iff] using ne_semicolon_of_mem_asmLine hchars t rd rs1 rs2
  have hword : ∀ c ∈ mnemonic ++ '.' :: nameAt suffixNames t, (!isBlank c) = true := by
    intro c hc
    rw [Bool.not_eq_true']
    rcases List.mem_append.mp hc with hmnemonic | hrest
    · exact isBlank_of_isNameChar (hchars c hmnemonic)
    · rcases List.mem_cons.mp hrest with rfl | hsuffix
      · rfl
      · exact isBlank_of_isNameChar (suffixNames_chars t c hsuffix)
  have hhead : ((asmLine mnemonic t [rd, rs1, rs2]).takeWhile fun c => !isBlank c) =
      mnemonic ++ '.' :: nameAt suffixNames t := by
    rw [asmLine_eq, List.takeWhile_append_of_pos hword]
    simp [isBlank]
  have hrest : ((asmLine mnemonic t [rd, rs1, rs2]).dropWhile fun c => !isBlank c) =
      ' ' :: printOperands [rd, rs1, rs2] := by
    rw [asmLine_eq, List.dropWhile_append_of_pos hword]
    simp [isBlank]
  have hpieces : splitAtChar '.' ((mnemonic ++ '.' :: nameAt suffixNames t).map Char.toLower) =
      [mnemonic.map Char.toLower, nameAt suffixNames t] := by
    rw [List.map_append, List.map_cons, suffixNames_toLower, show Char.toLower '.' = '.' from rfl,
      splitAtChar_append hlower,
      splitAtChar_of_not_mem (not_mem_of_isNameChar (suffixNames_chars t) rfl)]
  simp only [assemble, htext, trimBlanks_asmLine hne hchars, hhead, hrest, hpieces, parseSuffix_nameAt,
    parseRegisters_printOperands]

/-- HWD is MINHWD from here on (R99). -/
theorem buildCommand_hwd (t : Tag) (rd rs1 rs2 : RegIdx) :
    buildCommand ("HWD".toList.map Char.toLower) t [rd, rs1, rs2] = some (.minhwd t rd rs1 rs2) := rfl

theorem buildCommand_minhwd (t : Tag) (rd rs1 rs2 : RegIdx) :
    buildCommand ("MINHWD".toList.map Char.toLower) t [rd, rs1, rs2] = some (.minhwd t rd rs1 rs2) := rfl

/-- Settles O5: the printed lines are read back, HWD builds MINHWD, and the word and the print are MINHWD's. -/
theorem hwdIsMinhwd : Obligations.HwdIsMinhwd := by
  intro t rd rs1 rs2
  refine ⟨?hwd, ?minhwd, hasFields_formatC .., rfl⟩
  case hwd => rw [assemble_asmLine (by decide) (List.all_eq_true.mp rfl) (by decide), buildCommand_hwd]
  case minhwd => rw [assemble_asmLine (by decide) (List.all_eq_true.mp rfl) (by decide), buildCommand_minhwd]

end Sys2Proof.Machine
